-- ==== Sys2Proof/Word.lean ====
section
/-! DEFINITION. The word types of the machine (spec/00_scope.md R5, R6). -/

namespace Sys2Proof

/-- A memory cell, a general register, a timer: 8 bits (R10, R18, R20). -/
abbrev Byte := BitVec 8

/-- An instruction word, pc, I, a stack entry: 16 bits (R12, R14, R16, R60). -/
abbrev Word := BitVec 16

/-- The index of a general register, 0 to 15 (R10). -/
abbrev Reg := Fin 16

/-- The index of a virtual key, 0 to 15 (R22). -/
abbrev Key := Fin 16

/-- Register 15, VF (R11). -/
abbrev VF : Reg := 15

end Sys2Proof
end

