-- ==== Sys2Proof/Syntax.lean ====
section
/-! DEFINITION. The instructions: one constructor per row of spec/opcode_table.json, in table order
(spec/30_encoding.md R66). Operands are the instruction's subfields (R61, R62): X and Y are register indices, KK and
NNN immediates, N a row count 0 to 15. In the dump and load instructions X is the number of the last register. -/

namespace Sys2Proof

inductive Instr where
  /-- 00E0 clear-screen, `CLS` (R141). -/
  | cls
  /-- 00EE return-from-subroutine, `RET` (R84). -/
  | ret
  /-- 1NNN jump-NNN, `JP nnn` (R82). -/
  | jp (nnn : BitVec 12)
  /-- 2NNN call-NNN, `CALL nnn` (R83). -/
  | call (nnn : BitVec 12)
  /-- 3XKK skip-if-Vx-eq-KK, `SE Vx, kk` (R85). -/
  | seImm (x : Reg) (kk : Byte)
  /-- 4XKK skip-if-Vx-neq-KK, `SNE Vx, kk` (R86). -/
  | sneImm (x : Reg) (kk : Byte)
  /-- 5XY0 skip-if-Vx-eq-Vy, `SE Vx, Vy` (R87). -/
  | seReg (x y : Reg)
  /-- 6XKK set-Vx-KK, `LD Vx, kk` (R101). -/
  | ldImm (x : Reg) (kk : Byte)
  /-- 7XKK add-Vx-KK, `ADD Vx, kk` (R102). -/
  | addImm (x : Reg) (kk : Byte)
  /-- 8XY0 set-Vx-Vy, `LD Vx, Vy` (R103). -/
  | ldReg (x y : Reg)
  /-- 8XY1 or, `OR Vx, Vy` (R104). -/
  | orReg (x y : Reg)
  /-- 8XY2 and, `AND Vx, Vy` (R105). -/
  | andReg (x y : Reg)
  /-- 8XY3 xor, `XOR Vx, Vy` (R106). -/
  | xorReg (x y : Reg)
  /-- 8XY4 add-with-carry, `ADD Vx, Vy` (R107). -/
  | addReg (x y : Reg)
  /-- 8XY5 sub-with-borrow, `SUB Vx, Vy` (R108). -/
  | subReg (x y : Reg)
  /-- 8XY6 shift-right-with-bit0-flag, `SHR Vx`; Y is decoded and ignored (R109, R71). -/
  | shr (x y : Reg)
  /-- 8XY7 sub-reverse-with-borrow, `SUBN Vx, Vy` (R110). -/
  | subn (x y : Reg)
  /-- 8XYE shift-left-with-bit7-flag, `SHL Vx`; Y is decoded and ignored (R111, R71). -/
  | shl (x y : Reg)
  /-- 9XY0 skip-if-Vx-neq-Vy, `SNE Vx, Vy` (R88). -/
  | sneReg (x y : Reg)
  /-- ANNN set-I-NNN, `LD I, nnn` (R121). -/
  | ldI (nnn : BitVec 12)
  /-- BNNN jump-NNN-plus-V0, `JP V0, nnn` (R89). -/
  | jpV0 (nnn : BitVec 12)
  /-- CXKK set-Vx-random-and-KK, `RND Vx, kk` (R113). -/
  | rnd (x : Reg) (kk : Byte)
  /-- DXYN draw-sprite, `DRW Vx, Vy, n` (R143). -/
  | drw (x y : Reg) (n : Fin 16)
  /-- EX9E skip-if-key-pressed, `SKP Vx` (R162). -/
  | skp (x : Reg)
  /-- EXA1 skip-if-key-not-pressed, `SKNP Vx` (R163). -/
  | sknp (x : Reg)
  /-- FX07 load-Vx-from-delay-timer, `LD Vx, DT` (R156). -/
  | ldVxDt (x : Reg)
  /-- FX0A wait-for-keypress-into-Vx, `LD Vx, K` (R164). -/
  | ldVxK (x : Reg)
  /-- FX15 set-delay-timer-from-Vx, `LD DT, Vx` (R157). -/
  | ldDtVx (x : Reg)
  /-- FX18 set-sound-timer-from-Vx, `LD ST, Vx` (R158). -/
  | ldStVx (x : Reg)
  /-- FX1E add-Vx-to-I-with-overflow-flag, `ADD I, Vx` (R122). -/
  | addI (x : Reg)
  /-- FX29 set-I-to-font-sprite-address-for-digit-Vx, `LD F, Vx` (R124). -/
  | ldF (x : Reg)
  /-- FX33 store-BCD-of-Vx-at-I, `LD B, Vx` (R126). -/
  | ldB (x : Reg)
  /-- FX55 dump-registers-V0..Vx-to-memory-at-I, `LD [I], Vx` (R128). -/
  | dump (x : Reg)
  /-- FX65 load-registers-V0..Vx-from-memory-at-I, `LD Vx, [I]` (R130). -/
  | load (x : Reg)
  /-- 0NNN, `SYS nnn` (R81). -/
  | sys (nnn : BitVec 12)
deriving DecidableEq, Repr

end Sys2Proof
end

