-- ==== Sys2Proof/Decode.lean ====
section
/-! DEFINITION. The decoder (spec/30_encoding.md R60 to R72): the ordered table of 35 mask and pattern rows, first
match wins, total on any bytes, refusing by name; then the encoder, from the same formats. -/

namespace Sys2Proof

/-! ## Byte order -/

/-- The instruction word of two bytes: the byte at the lower address is the more significant half (R41). -/
def wordOfBytes (first second : Byte) : Word := first ++ second

/-- The two bytes of an instruction word in memory order (R41). -/
def bytesOfWord (w : Word) : List Byte := [w.extractLsb' 8 8, w.extractLsb' 0 8]

/-! ## Subfields (R61) -/

/-- X = w[11:8]. -/
def fieldX (w : Word) : Reg := (w.extractLsb' 8 4).toFin
/-- Y = w[7:4]. -/
def fieldY (w : Word) : Reg := (w.extractLsb' 4 4).toFin
/-- N = w[3:0]. -/
def fieldN (w : Word) : Fin 16 := (w.extractLsb' 0 4).toFin
/-- KK = w[7:0]. -/
def fieldKK (w : Word) : Byte := w.extractLsb' 0 8
/-- NNN = w[11:0]. -/
def fieldNNN (w : Word) : BitVec 12 := w.extractLsb' 0 12

/-! ## The instruction table (R66) -/

/-- One entry: it matches `w` when `w and mask = pattern`, and then stands for the instruction `build w`. -/
structure Row where
  mask : Word
  pattern : Word
  build : Word → Instr

/-- A table entry matches a word (R65). -/
def Row.hits (r : Row) (w : Word) : Bool := w &&& r.mask == r.pattern

/-- Format Z: all 16 bits fixed (R62). -/
def rowZ (pattern : Word) (i : Instr) : Row := ⟨0xFFFF, pattern, fun _ => i⟩
/-- Format A: OP fixed, operand NNN (R62). -/
def rowA (pattern : Word) (f : BitVec 12 → Instr) : Row := ⟨0xF000, pattern, fun w => f (fieldNNN w)⟩
/-- Format XK: OP fixed, operands X and KK (R62). -/
def rowXK (pattern : Word) (f : Reg → Byte → Instr) : Row := ⟨0xF000, pattern, fun w => f (fieldX w) (fieldKK w)⟩
/-- Format XY: OP and the last digit fixed, operands X and Y (R62). -/
def rowXY (pattern : Word) (f : Reg → Reg → Instr) : Row := ⟨0xF00F, pattern, fun w => f (fieldX w) (fieldY w)⟩
/-- Format XYN: OP fixed, operands X, Y and N (R62). -/
def rowXYN (pattern : Word) (f : Reg → Reg → Fin 16 → Instr) : Row :=
  ⟨0xF000, pattern, fun w => f (fieldX w) (fieldY w) (fieldN w)⟩
/-- Format XF: OP and the last two digits fixed, operand X (R62). -/
def rowXF (pattern : Word) (f : Reg → Instr) : Row := ⟨0xF0FF, pattern, fun w => f (fieldX w)⟩

/-- Entries 1 to 9. -/
def rows1 : List Row :=
  [rowZ 0x00E0 .cls, rowZ 0x00EE .ret, rowA 0x1000 .jp, rowA 0x2000 .call, rowXK 0x3000 .seImm, rowXK 0x4000 .sneImm,
    rowXY 0x5000 .seReg, rowXK 0x6000 .ldImm, rowXK 0x7000 .addImm]

/-- Entries 10 to 18. -/
def rows10 : List Row :=
  [rowXY 0x8000 .ldReg, rowXY 0x8001 .orReg, rowXY 0x8002 .andReg, rowXY 0x8003 .xorReg, rowXY 0x8004 .addReg,
    rowXY 0x8005 .subReg, rowXY 0x8006 .shr, rowXY 0x8007 .subn, rowXY 0x800E .shl]

/-- Entries 19 to 25. -/
def rows19 : List Row :=
  [rowXY 0x9000 .sneReg, rowA 0xA000 .ldI, rowA 0xB000 .jpV0, rowXK 0xC000 .rnd, rowXYN 0xD000 .drw,
    rowXF 0xE09E .skp, rowXF 0xE0A1 .sknp]

/-- Entries 26 to 35; `0NNN`, the least specific, is the last (R67). -/
def rows26 : List Row :=
  [rowXF 0xF007 .ldVxDt, rowXF 0xF00A .ldVxK, rowXF 0xF015 .ldDtVx, rowXF 0xF018 .ldStVx, rowXF 0xF01E .addI,
    rowXF 0xF029 .ldF, rowXF 0xF033 .ldB, rowXF 0xF055 .dump, rowXF 0xF065 .load, rowA 0x0000 .sys]

/-- The 35 entries in table order (R66). -/
def instrTable : List Row := rows1 ++ rows10 ++ rows19 ++ rows26

/-- The first entry in order that matches (R65). -/
def resolveIn : List Row → Word → Option Instr
  | [], _ => none
  | r :: rs, w => if r.hits w then some (r.build w) else resolveIn rs w

/-- `Resolve(w)` of R65; `none` is UNKNOWN, a decode miss (R70). -/
def resolve (w : Word) : Option Instr := resolveIn instrTable w

/-! ## Decoding bytes -/

/-- Why bytes are no instruction. -/
inductive DecodeError where
  /-- Fewer than two bytes: an instruction is always two (R60). -/
  | truncated
  /-- The word matches no table entry (R70). -/
  | decodeMiss (w : Word)
deriving DecidableEq, Repr

/-- Decodes the instruction at the head of a byte sequence and gives the bytes after it. -/
def decode : List Byte → Except DecodeError (Instr × List Byte)
  | first :: second :: rest =>
    match resolve (wordOfBytes first second) with
    | some i => .ok (i, rest)
    | none => .error (.decodeMiss (wordOfBytes first second))
  | _ => .error .truncated

/-- The instruction read from the word whose bits are `w`, numbered as spec/opcode_table.json numbers them; bits from
`nbits` up are 0. -/
def decodeTableWord (nbits w : Nat) : Option Instr :=
  match decode (bytesOfWord (BitVec.ofNat 16 (w % 2 ^ nbits))) with
  | .ok (i, []) => some i
  | _ => none

/-! ## Encoding (R61, R62, R66) -/

/-- A register index or a row count as a 4-bit field. -/
def nibble (x : Fin 16) : BitVec 4 := BitVec.ofFin x

/-- Format A: OP NNN. -/
def packA (op : BitVec 4) (nnn : BitVec 12) : Word := op ++ nnn
/-- Format XK: OP X KK; also format XF, whose last two digits are fixed. -/
def packXK (op : BitVec 4) (x : Reg) (kk : Byte) : Word := op ++ nibble x ++ kk
/-- Format XYN: OP X Y N; also format XY, whose last digit is fixed. -/
def packXYN (op : BitVec 4) (x y n : Fin 16) : Word := op ++ nibble x ++ nibble y ++ nibble n

/-- The word of an instruction. -/
def encodeWord : Instr → Word
  | .cls => 0x00E0
  | .ret => 0x00EE
  | .jp nnn => packA 0x1 nnn
  | .call nnn => packA 0x2 nnn
  | .seImm x kk => packXK 0x3 x kk
  | .sneImm x kk => packXK 0x4 x kk
  | .seReg x y => packXYN 0x5 x y 0x0
  | .ldImm x kk => packXK 0x6 x kk
  | .addImm x kk => packXK 0x7 x kk
  | .ldReg x y => packXYN 0x8 x y 0x0
  | .orReg x y => packXYN 0x8 x y 0x1
  | .andReg x y => packXYN 0x8 x y 0x2
  | .xorReg x y => packXYN 0x8 x y 0x3
  | .addReg x y => packXYN 0x8 x y 0x4
  | .subReg x y => packXYN 0x8 x y 0x5
  | .shr x y => packXYN 0x8 x y 0x6
  | .subn x y => packXYN 0x8 x y 0x7
  | .shl x y => packXYN 0x8 x y 0xE
  | .sneReg x y => packXYN 0x9 x y 0x0
  | .ldI nnn => packA 0xA nnn
  | .jpV0 nnn => packA 0xB nnn
  | .rnd x kk => packXK 0xC x kk
  | .drw x y n => packXYN 0xD x y n
  | .skp x => packXK 0xE x 0x9E
  | .sknp x => packXK 0xE x 0xA1
  | .ldVxDt x => packXK 0xF x 0x07
  | .ldVxK x => packXK 0xF x 0x0A
  | .ldDtVx x => packXK 0xF x 0x15
  | .ldStVx x => packXK 0xF x 0x18
  | .addI x => packXK 0xF x 0x1E
  | .ldF x => packXK 0xF x 0x29
  | .ldB x => packXK 0xF x 0x33
  | .dump x => packXK 0xF x 0x55
  | .load x => packXK 0xF x 0x65
  | .sys nnn => packA 0x0 nnn

/-- The bytes of an instruction in memory order. -/
def encode (i : Instr) : List Byte := bytesOfWord (encodeWord i)

end Sys2Proof
end

