-- ==== Sys2Proof/Config.lean ====
section
/-! DEFINITION. What is fixed for the machine, and the free values the spec leaves open.
The sizes are the source's (spec/00_scope.md R5). An `opaque` constant has no body: no proof can see its value, so a
claim about it holds whatever it is. Each free value is applied to the counter `State.free`, which makes it fresh. -/

namespace Sys2Proof.Config

/-- MEM_SIZE: 4096 cells of one byte (R5, R20). -/
abbrev memSize : Nat := 4096

/-- PROG_BASE: the ROM is loaded from here (R5, R47). -/
abbrev progBase : Nat := 0x200

/-- RESET_PC (R5, R12). -/
abbrev resetPc : Word := 0x200

/-- ROM_MAX: MEM_SIZE minus PROG_BASE (R5, R203). -/
abbrev romMax : Nat := 3584

/-- The answer of the random source to `Rnd()` when none is lined up in `State.rnd`: any non-negative integer, under
no law (R114). Assumption 3. -/
opaque freeRnd : Nat → Nat

/-! What the machine holds after an index-bounds violation, MODE apart: "the values of pc, the registers, I, memory,
the framebuffer, the timers and the stack are not defined" (spec/60_exceptions.md R179). Assumption 6. -/

/-- V[0] to V[15] after a violation. -/
opaque fatalRegs : Nat → Vector Byte 16
/-- pc after a violation. -/
opaque fatalPc : Nat → Word
/-- I after a violation. -/
opaque fatalI : Nat → Word
/-- SP after a violation. -/
opaque fatalSp : Nat → Fin 17
/-- STACK after a violation. -/
opaque fatalStack : Nat → Vector Word 16
/-- DT after a violation. -/
opaque fatalDt : Nat → Byte
/-- ST after a violation. -/
opaque fatalSt : Nat → Byte
/-- KEY after a violation. -/
opaque fatalKeys : Nat → Vector Bool 16
/-- The framebuffer after a violation, one 64-bit row each. -/
opaque fatalFb : Nat → Vector (BitVec 64) 32
/-- The byte at an address after a violation. -/
opaque fatalByte : Nat → Nat → Byte
/-- WAITREG after a violation. -/
opaque fatalWaitReg : Nat → Reg

end Sys2Proof.Config
end

