-- ==== Sys2Proof/Machine/Params.lean ====
section
/-! DEFINITION. The parameters with a decided or customary value (spec/00_scope.md R5, spec/92_eei_decisions.md D13,
D14, D15). They stand here, not in Config, so that evidence against one can mend it. -/

namespace Sys2Proof.Machine

/-- FONT_BASE: the address of the glyph of digit 0 (R5, D14). Assumption 10. -/
def fontBase : Nat := 0x000

/-- FONT_STRIDE: bytes per glyph (R5, D14). Assumption 10. -/
def fontStride : Nat := 5

/-- I_OVF_LIMIT: a sum above this sets the overflow flag of FX1E (R5, R122, D13). Assumption 11. -/
def iOvfLimit : Nat := 0x0FFF

/-- Glyphs 0 to 7 of the customary font (spec/20_memory.md R48). -/
def glyphs0 : List (List Byte) :=
  [[0xF0, 0x90, 0x90, 0x90, 0xF0], [0x20, 0x60, 0x20, 0x20, 0x70], [0xF0, 0x10, 0xF0, 0x80, 0xF0],
    [0xF0, 0x10, 0xF0, 0x10, 0xF0], [0x90, 0x90, 0xF0, 0x10, 0x10], [0xF0, 0x80, 0xF0, 0x10, 0xF0],
    [0xF0, 0x80, 0xF0, 0x90, 0xF0], [0xF0, 0x10, 0x20, 0x40, 0x40]]

/-- Glyphs 8 to F of the customary font (R48). -/
def glyphs8 : List (List Byte) :=
  [[0xF0, 0x90, 0xF0, 0x90, 0xF0], [0xF0, 0x90, 0xF0, 0x10, 0xF0], [0xF0, 0x90, 0xF0, 0x90, 0x90],
    [0xE0, 0x90, 0xE0, 0x90, 0xE0], [0xF0, 0x80, 0x80, 0x80, 0xF0], [0xE0, 0x90, 0x90, 0x90, 0xE0],
    [0xF0, 0x80, 0xF0, 0x80, 0xF0], [0xF0, 0x80, 0xF0, 0x80, 0x80]]

/-- The customary value of the OPEN parameter FONT (R48, D15). PRESUMED, assumption 2: `State.reset` holds it in its
field `font`; a statement about the font holds for every value of that field. -/
def customaryFont : Vector Byte 80 := ⟨(glyphs0 ++ glyphs8).flatten.toArray, by decide⟩

end Sys2Proof.Machine
end

