-- ==== Sys2Proof/Machine/State.lean ====
section
/-! DEFINITION. The machine's state as plain data (spec/10_state.md R10 to R28), its reset value (R26, R49), the events
that drive it (spec/00_scope.md R9) and the reasons it can stop. -/

namespace Sys2Proof.Machine

/-- The engine mode MODE (R21). -/
inductive Mode where
  /-- RUN: a `Step` executes one instruction. -/
  | run
  /-- AWAIT_KEY: FX0A has started and no `KeyDown` has arrived. -/
  | awaitKey
  /-- FATAL: an index-bounds violation has happened; only `Reset` has an effect. -/
  | fatal
deriving DecidableEq, Repr

/-- The atomic events that drive the core (R9). -/
inductive Event where
  /-- `Reset` (R200). -/
  | reset
  /-- `Load(bytes)` (R203). -/
  | load (bytes : List Byte)
  /-- `Step` (R64). -/
  | step
  /-- `FrameTick` (R160). -/
  | frameTick
  /-- `KeyDown(k)` (R166). -/
  | keyDown (k : Key)
  /-- `KeyUp(k)` (R167). -/
  | keyUp (k : Key)
deriving DecidableEq, Repr

/-- MEM: address and byte pairs in canonical form (`Memory.wf`). -/
abbrev Memory := List Host.Cell

/-- FB: row y is the y-th entry, and its bit x is FB[x][y], 1 for "on" (R23). -/
abbrev Framebuffer := Vector (BitVec 64) 32

/-- Everything the spec gives the machine, then the model's own fields. -/
structure State where
  /-- V[0] to V[15] (R10). -/
  v : Vector Byte 16
  /-- pc (R12). -/
  pc : Word
  /-- I (R14). -/
  ireg : Word
  /-- SP, 0 to 16 (R16, R17). -/
  sp : Fin 17
  /-- STACK[0] to STACK[15]; entries from SP up are dead and keep their value (R16, R17). -/
  stack : Vector Word 16
  /-- DT (R18). -/
  dt : Byte
  /-- ST (R18). -/
  st : Byte
  /-- KEY[0] to KEY[15], true for pressed (R22). -/
  keys : Vector Bool 16
  /-- FB (R23). -/
  fb : Framebuffer
  /-- MEM (R20). -/
  mem : Memory
  /-- MODE (R21). -/
  mode : Mode
  /-- WAITREG (R21). -/
  waitReg : Reg
  /-- Model's own: the parameter FONT (R5, R48); no step changes it. Assumption 2. -/
  font : Vector Byte 80
  /-- Model's own: host events still to be delivered, the next one first (R9, R213). Assumption 4. -/
  events : List Event
  /-- Model's own: answers the random source has lined up for `Rnd()` (R114). Assumption 3. -/
  rnd : List Nat
  /-- Model's own: the counter the free values of Config are applied to. Assumptions 3 and 6. -/
  free : Nat
  /-- Model's own: the words of `Report(DecodeMiss, w)`, the latest first (R177). Assumption 7. -/
  reports : List Word
  /-- Model's own: no `Load` and no executing `Step` has come since `Reset` (R202, R203). Assumption 8. -/
  loadable : Bool
deriving DecidableEq, Repr

/-- Why the machine stops with a fault. -/
inductive Fault where
  /-- Raised by the event `Load` with more than 3584 bytes: "fatal to startup; the execution loop must not begin"
  (R187, R203). Safe: no run exists after it. -/
  | romLoadFailure
deriving DecidableEq, Repr

/-- What the model gives no meaning to. -/
inductive Refusal where
  /-- Raised by an arm of `exec` whose instruction has no meaning yet; no arm is left so. Safe. -/
  | notModelled (mnemonic : String)
  /-- Raised by the event `Load` after a `Load` or after the first `Step`, which the host never issues (R203, R213).
  Safe: it is outside the host's liberties. -/
  | loadOutsideBoot
deriving DecidableEq, Repr

/-- The outcome of an instruction or an event. -/
abbrev Out := Host.Outcome State Fault Refusal

/-- The machine right after `Reset` (R26, R49): memory lists nothing, so every cell reads its reset content. -/
def State.reset : State where
  v := Vector.replicate 16 0
  pc := Config.resetPc
  ireg := 0
  sp := 0
  stack := Vector.replicate 16 0
  dt := 0
  st := 0
  keys := Vector.replicate 16 false
  fb := Vector.replicate 32 0
  mem := []
  mode := .run
  waitReg := 0
  font := customaryFont
  events := []
  rnd := []
  free := 0
  reports := []
  loadable := true

end Sys2Proof.Machine
end

