-- ==== Sys2Proof/Machine/Ops.lean ====
section
/-! DEFINITION. The named operations over memory, registers, pc, stack, framebuffer and inputs that every meaning is
written with, and the one shared operation of the index-bounds violation. -/

namespace Sys2Proof.Machine

/-! ## Memory (spec/20_memory.md) -/

/-- What a cell holds after `Reset`, and so what an unlisted address reads as: the FONT bytes at FONT_BASE and 0x00
elsewhere (R49). -/
def unlisted (font : Vector Byte 80) (a : Nat) : Byte :=
  if h : fontBase ≤ a ∧ a < fontBase + 80 then font[a - fontBase]'(by omega) else 0

/-- The byte at address `a`, where an unlisted address reads as `bg`. -/
def Memory.read (bg : Nat → Byte) : Memory → Nat → Byte
  | [], a => bg a
  | (a', b') :: m, a => if a = a' then b' else Memory.read bg m a

/-- Memory with `b` at address `a`, in canonical form if it was. -/
def Memory.write (bg : Nat → Byte) : Memory → Nat → Byte → Memory
  | [], a, b => if b = bg a then [] else [(a, b)]
  | (a', b') :: m, a, b =>
    if a < a' then (if b = bg a then (a', b') :: m else (a, b) :: (a', b') :: m)
    else if a = a' then (if b = bg a then m else (a, b) :: m)
    else (a', b') :: Memory.write bg m a b

/-- Canonical form from address `lo` up. -/
def Memory.wfFrom (bg : Nat → Byte) : Nat → Memory → Bool
  | _, [] => true
  | lo, (a, b) :: m => decide (lo ≤ a) && decide (a < Config.memSize) && decide (b ≠ bg a) && Memory.wfFrom bg (a + 1) m

/-- Canonical form: addresses strictly rising and below 4096, no entry equal to what an unlisted address reads as. -/
def Memory.wf (bg : Nat → Byte) (m : Memory) : Bool := Memory.wfFrom bg 0 m

/-- The canonical memory that holds `f a` at the `n` addresses from `a` and the unlisted content elsewhere. -/
def Memory.tabulate (bg f : Nat → Byte) : Nat → Nat → Memory
  | _, 0 => []
  | a, n + 1 => if f a = bg a then Memory.tabulate bg f (a + 1) n else (a, f a) :: Memory.tabulate bg f (a + 1) n

/-- The content of the cell at address `a`, with no bounds check. -/
def State.byteAt (s : State) (a : Nat) : Byte := s.mem.read (unlisted s.font) a

/-- Sets the cell at address `a`, with no bounds check. -/
def State.poke (s : State) (a : Nat) (b : Byte) : State := { s with mem := s.mem.write (unlisted s.font) a b }

/-- `MemRead(a, 1)`; `none` is the index-bounds violation of R44. The address is not reduced (R40). -/
def State.memRead (s : State) (a : Nat) : Option Byte := if a < Config.memSize then some (s.byteAt a) else none

/-- `MemWrite(a, 1, b)`; `none` is the index-bounds violation of R44 (R43). -/
def State.memWrite (s : State) (a : Nat) (b : Byte) : Option State :=
  if a < Config.memSize then some (s.poke a b) else none

/-- `n` one-byte reads in ascending address order from `a`. -/
def State.readBytes (s : State) : Nat → Nat → Option (List Byte)
  | _, 0 => some []
  | a, n + 1 =>
    match s.memRead a with
    | none => none
    | some b =>
      match s.readBytes (a + 1) n with
      | none => none
      | some bs => some (b :: bs)

/-- One-byte writes of a list in ascending address order from `a`. -/
def State.writeBytes (s : State) : Nat → List Byte → Option State
  | _, [] => some s
  | a, b :: bs =>
    match s.memWrite a b with
    | none => none
    | some t => t.writeBytes (a + 1) bs

/-- `MemRead(pc, 2)`: the instruction word at pc (R41, R42, R64). -/
def State.fetchWord (s : State) : Option Word :=
  match s.memRead s.pc.toNat, s.memRead (s.pc.toNat + 1) with
  | some first, some second => some (wordOfBytes first second)
  | _, _ => none

/-! ## Registers, pc, I, timers, keys -/

/-- `V[r]` (R10). -/
def State.getV (s : State) (r : Reg) : Byte := s.v[r]

/-- `V[r] <- b` (R10). -/
def State.setV (s : State) (r : Reg) (b : Byte) : State := { s with v := s.v.set r.val b r.isLt }

/-- `V[k] <- b, V[k+1] <- …` in ascending order, for the load instruction (R130). -/
def State.setVFrom (s : State) : Nat → List Byte → State
  | _, [] => s
  | k, b :: bs => State.setVFrom { s with v := s.v.setIfInBounds k b } (k + 1) bs

/-- `pc <- t`. -/
def State.setPc (s : State) (t : Word) : State := { s with pc := t }

/-- `pc <- (pc + 2) mod 2^16`, the normal advance (R80). -/
def State.advance (s : State) : State := s.setPc (s.pc + 2)

/-- The advance of a skip: two words if the condition holds, else one (R80). -/
def State.skipIf (s : State) (c : Bool) : State := if c then s.setPc (s.pc + 4) else s.advance

/-- `I <- w`. -/
def State.setI (s : State) (w : Word) : State := { s with ireg := w }

/-- `DT <- b`. -/
def State.setDt (s : State) (b : Byte) : State := { s with dt := b }

/-- `ST <- b`. -/
def State.setSt (s : State) (b : Byte) : State := { s with st := b }

/-- `KEY[k]` (R22). -/
def State.keyDown (s : State) (k : Key) : Bool := s.keys[k]

/-- `KEY[k] <- b`. -/
def State.setKey (s : State) (k : Key) (b : Bool) : State := { s with keys := s.keys.set k.val b k.isLt }

/-- `MODE <- m`. -/
def State.setMode (s : State) (m : Mode) : State := { s with mode := m }

/-- `WAITREG <- x`. -/
def State.setWaitReg (s : State) (x : Reg) : State := { s with waitReg := x }

/-- `FB <- f`, the whole grid. -/
def State.setFb (s : State) (f : Framebuffer) : State := { s with fb := f }

/-! ## The call stack (R16, R17) -/

/-- Pushes an entry; with sixteen live entries nothing is pushed (R83). -/
def State.pushFrame (s : State) (w : Word) : State :=
  if h : s.sp.val < 16 then
    { s with stack := s.stack.set s.sp.val w h, sp := ⟨s.sp.val + 1, by omega⟩ }
  else s

/-- The most recent live entry, if there is one. -/
def State.topFrame (s : State) : Option Word :=
  if h : 0 < s.sp.val then some (s.stack[s.sp.val - 1]'(by omega)) else none

/-- `SP <- SP - 1`; the entry keeps its value but is dead. An empty stack stays empty (R84). -/
def State.popFrame (s : State) : State := { s with sp := ⟨s.sp.val - 1, by omega⟩ }

/-! ## Inputs and outputs -/

/-- The value the next `Rnd()` answers: the first answer lined up, else a free value (R114). -/
def State.rndValue (s : State) : Nat :=
  match s.rnd with
  | r :: _ => r
  | [] => Config.freeRnd s.free

/-- The state after one `Rnd()`: only the model's own input fields change (R114). -/
def State.afterRnd (s : State) : State :=
  match s.rnd with
  | _ :: rs => { s with rnd := rs }
  | [] => { s with free := s.free + 1 }

/-- `Report(DecodeMiss, w)` (R177). -/
def State.report (s : State) (w : Word) : State := { s with reports := w :: s.reports }

/-- The event to be delivered next: the first of the host's, else a `Step`. Assumption 5. -/
def State.nextEvent (s : State) : Event :=
  match s.events with
  | e :: _ => e
  | [] => .step

/-- The state once that event is taken from the list. -/
def State.takeEvent (s : State) : State := { s with events := s.events.tail }

/-- No `Load` may come any more (R202, R203). -/
def State.sealBoot (s : State) : State := { s with loadable := false }

/-- The output level `fatal` (R21, R188). -/
def State.fatalLevel (s : State) : Bool := s.mode == .fatal

/-- The output level `awaiting_key` (R21, R188). -/
def State.awaitingKeyLevel (s : State) : Bool := s.mode == .awaitKey

/-! ## The index-bounds violation (spec/60_exceptions.md R178, R179) -/

/-- `raise IndexBounds`: MODE becomes FATAL and the instruction ends. Nothing else is defined, so every other piece of
the machine's state is a free value; nothing records the index (R176). The model's own fields are no state of the
machine and stay, but for the counter. Assumption 6. -/
def State.raiseIndexBounds (s : State) : State :=
  { s with
    mode := .fatal
    v := Config.fatalRegs s.free
    pc := Config.fatalPc s.free
    ireg := Config.fatalI s.free
    sp := Config.fatalSp s.free
    stack := Config.fatalStack s.free
    dt := Config.fatalDt s.free
    st := Config.fatalSt s.free
    keys := Config.fatalKeys s.free
    fb := Config.fatalFb s.free
    mem := Memory.tabulate (unlisted s.font) (Config.fatalByte s.free) 0 Config.memSize
    waitReg := Config.fatalWaitReg s.free
    free := s.free + 1 }

end Sys2Proof.Machine
end

