-- ==== Sys2Proof/Machine/Operands.lean ====
section
/-! DEFINITION. The operand forms: addresses, key indices, immediates at their width of use, register ranges, digits
(spec/30_encoding.md R63, spec/42_index_memory.md R120). Every meaning reads its operands from the state it is given,
before any write of its own (spec/00_scope.md R8). -/

namespace Sys2Proof.Machine

/-- The address of the `k`-th byte of a data access: I + k, not reduced (R120, D30). -/
def State.dataAddr (s : State) (k : Nat) : Nat := s.ireg.toNat + k

/-- NNN as a value of pc or I: zero-extended to 16 bits (R63). -/
def addrOf (nnn : BitVec 12) : Word := nnn.setWidth 16

/-- NNN + V0, at most 0x10FE, so never reduced (R89). -/
def addrPlus (nnn : BitVec 12) (v0 : Byte) : Word := nnn.setWidth 16 + v0.setWidth 16

/-- The key a register value names; `none` is the index-bounds violation of a value above 15 (R162, R163). -/
def keyIndex (b : Byte) : Option Key := if h : b.toNat < 16 then some ⟨b.toNat, h⟩ else none

/-- FONT_BASE + 5 * vx mod 2^16, vx not masked (R124). -/
def fontAddr (b : Byte) : Word := BitVec.ofNat 16 (fontBase + fontStride * b.toNat)

/-- The hundreds, tens and units digits, one byte each (R126). -/
def bcdDigits (b : Byte) : List Byte :=
  [BitVec.ofNat 8 (b.toNat / 100), BitVec.ofNat 8 (b.toNat / 10 % 10), BitVec.ofNat 8 (b.toNat % 10)]

/-- V[0] to V[X], X itself included (R128). -/
def State.regsUpTo (s : State) (x : Reg) : List Byte := s.v.toList.take (x.val + 1)

/-- A draw reduced modulo KK + 1 (R113). -/
def reduceRnd (r : Nat) (kk : Byte) : Byte := BitVec.ofNat 8 (r % (kk.toNat + 1))

end Sys2Proof.Machine
end

