-- ==== Sys2Proof/Machine/Flags.lean ====
section
/-! DEFINITION. The values written into VF as a flag: always 0 or 1 (spec/10_state.md R11). -/

namespace Sys2Proof.Machine

/-- A flag as the byte 0 or 1. -/
def flagByte (c : Bool) : Byte := if c then 1 else 0

/-- Carry out of an 8-bit addition (R107). -/
def carryOut (a b : Byte) : Byte := flagByte (decide (a.toNat + b.toNat > 255))

/-- NOT borrow of a - b: 0 exactly when a < b (R108, R110). -/
def notBorrow (a b : Byte) : Byte := flagByte (!decide (a.toNat < b.toNat))

/-- The bit a right shift moves out: bit 0 (R109). -/
def shiftedOutRight (a : Byte) : Byte := flagByte (a.getLsbD 0)

/-- The bit a left shift moves out: bit 7, as 0 or 1 (R111). -/
def shiftedOutLeft (a : Byte) : Byte := flagByte (a.getLsbD 7)

/-- The overflow flag of FX1E: the sum exceeds I_OVF_LIMIT (R122). -/
def indexOverflow (i : Word) (a : Byte) : Byte := flagByte (decide (i.toNat + a.toNat > iOvfLimit))

/-- A flag-writing ALU instruction: the flag into VF first, then the result into V[X], so with X = 15 the result
stays (R100), then the advance. -/
def State.flagThenResult (s : State) (x : Reg) (flag result : Byte) : State :=
  ((s.setV VF flag).setV x result).advance

end Sys2Proof.Machine
end

