-- ==== Sys2Proof/Machine/Alu.lean ====
section
/-! DEFINITION. Register and ALU instructions (spec/41_alu.md R100 to R114). -/

namespace Sys2Proof.Machine

/-- 6XKK (R101). -/
def execLdImm (x : Reg) (kk : Byte) (s : State) : Out := .next (s.setV x kk).advance

/-- 7XKK: wraps modulo 256, no flag (R102). -/
def execAddImm (x : Reg) (kk : Byte) (s : State) : Out := .next (s.setV x (s.getV x + kk)).advance

/-- 8XY0 (R103). -/
def execLdReg (x y : Reg) (s : State) : Out := .next (s.setV x (s.getV y)).advance

/-- 8XY1 (R104). -/
def execOrReg (x y : Reg) (s : State) : Out := .next (s.setV x (s.getV x ||| s.getV y)).advance

/-- 8XY2 (R105). -/
def execAndReg (x y : Reg) (s : State) : Out := .next (s.setV x (s.getV x &&& s.getV y)).advance

/-- 8XY3 (R106). -/
def execXorReg (x y : Reg) (s : State) : Out := .next (s.setV x (s.getV x ^^^ s.getV y)).advance

/-- 8XY4 (R107). -/
def execAddReg (x y : Reg) (s : State) : Out :=
  .next (s.flagThenResult x (carryOut (s.getV x) (s.getV y)) (s.getV x + s.getV y))

/-- 8XY5 (R108). -/
def execSubReg (x y : Reg) (s : State) : Out :=
  .next (s.flagThenResult x (notBorrow (s.getV x) (s.getV y)) (s.getV x - s.getV y))

/-- 8XY6: in place, Y not read (R109). -/
def execShr (x _y : Reg) (s : State) : Out :=
  .next (s.flagThenResult x (shiftedOutRight (s.getV x)) (s.getV x >>> 1))

/-- 8XY7: vy - vx (R110). -/
def execSubn (x y : Reg) (s : State) : Out :=
  .next (s.flagThenResult x (notBorrow (s.getV y) (s.getV x)) (s.getV y - s.getV x))

/-- 8XYE: in place, Y not read (R111). -/
def execShl (x _y : Reg) (s : State) : Out :=
  .next (s.flagThenResult x (shiftedOutLeft (s.getV x)) (s.getV x <<< 1))

/-- CXKK: one fresh draw reduced modulo KK + 1 (R113, R114). -/
def execRnd (x : Reg) (kk : Byte) (s : State) : Out :=
  .next (s.afterRnd.setV x (reduceRnd s.rndValue kk)).advance

end Sys2Proof.Machine
end

