-- ==== Sys2Proof/Machine/Control.lean ====
section
/-! DEFINITION. Control flow: jumps, call and return, the value skips, `0NNN` and the unknown action
(spec/40_control_flow.md R80 to R91). Each meaning states the value pc has when the instruction ends. -/

namespace Sys2Proof.Machine

/-- 0NNN: no effect but the advance; nothing is reported (R81, D4). -/
def execSys (_nnn : BitVec 12) (s : State) : Out := .next s.advance

/-- 1NNN (R82). -/
def execJp (nnn : BitVec 12) (s : State) : Out := .next (s.setPc (addrOf nnn))

/-- 2NNN: pushes the address of the call itself, dropped on a full stack, and jumps in both cases (R83). -/
def execCall (nnn : BitVec 12) (s : State) : Out := .next ((s.pushFrame s.pc).setPc (addrOf nnn))

/-- 00EE: pops the call's address and advances past it; a no-op on an empty stack (R84). -/
def execRet (s : State) : Out :=
  match s.topFrame with
  | some w => .next (s.popFrame.setPc (w + 2))
  | none => .next s.advance

/-- 3XKK (R85). -/
def execSeImm (x : Reg) (kk : Byte) (s : State) : Out := .next (s.skipIf (s.getV x == kk))

/-- 4XKK (R86). -/
def execSneImm (x : Reg) (kk : Byte) (s : State) : Out := .next (s.skipIf (s.getV x != kk))

/-- 5XY0 (R87). -/
def execSeReg (x y : Reg) (s : State) : Out := .next (s.skipIf (s.getV x == s.getV y))

/-- 9XY0 (R88). -/
def execSneReg (x y : Reg) (s : State) : Out := .next (s.skipIf (s.getV x != s.getV y))

/-- BNNN (R89). -/
def execJpV0 (nnn : BitVec 12) (s : State) : Out := .next (s.setPc (addrPlus nnn (s.getV 0)))

/-- The unknown action: a decode miss is reported and pc advances (R90, R177). -/
def execUnknown (w : Word) (s : State) : Out := .next (s.report w).advance

end Sys2Proof.Machine
end

