-- ==== Sys2Proof/Machine/Display.lean ====
section
/-! DEFINITION. The framebuffer, the sprite blitter and the two framebuffer instructions (spec/43_framebuffer.md R140
to R145). -/

namespace Sys2Proof.Machine

/-- The grid with every pixel off (R23, R141). -/
def Framebuffer.blank : Framebuffer := Vector.replicate 32 0

/-- FB[x][y] (R23). -/
def Framebuffer.pixel (f : Framebuffer) (x : Fin 64) (y : Fin 32) : Bool := f[y].getLsbD x.val

/-- FB[x][y] <- FB[x][y] xor 1. -/
def Framebuffer.flip (f : Framebuffer) (x : Fin 64) (y : Fin 32) : Framebuffer :=
  f.set y.val (f[y] ^^^ (1#64 <<< x.val)) y.isLt

/-- The read port of the render sink: FB[x][y] as it stands between two events (R24). -/
def State.pixel (s : State) (x : Fin 64) (y : Fin 32) : Bool := s.fb.pixel x y

/-- The column of bit `j` of a sprite row at origin `ox`: wraps at 64 (R142). -/
def column (ox j : Nat) : Fin 64 := Fin.ofNat 64 (ox + j)

/-- The row `r` rows below origin `oy`: wraps at 32 (R142). -/
def rowOf (oy r : Nat) : Fin 32 := Fin.ofNat 32 (oy + r)

/-- One bit of a sprite row, bit 0 being the most significant: a 1 flips its pixel, and a pixel that was on makes a
collision (R142). -/
def blitBit (ox : Nat) (y : Fin 32) (b : Byte) (acc : Framebuffer × Bool) (j : Nat) : Framebuffer × Bool :=
  if b.getMsbD j then (acc.1.flip (column ox j) y, acc.2 || acc.1.pixel (column ox j) y) else acc

/-- One sprite row: its eight bits from left to right (R142). -/
def blitRow (ox : Nat) (y : Fin 32) (b : Byte) (acc : Framebuffer × Bool) : Framebuffer × Bool :=
  (List.range 8).foldl (blitBit ox y b) acc

/-- The rows from row `r` on, top to bottom (R142). -/
def blitRows (ox oy : Nat) : Nat → List Byte → Framebuffer × Bool → Framebuffer × Bool
  | _, [], acc => acc
  | r, b :: bs, acc => blitRows ox oy (r + 1) bs (blitRow ox (rowOf oy r) b acc)

/-- `DrawSprite(ox, oy, height, bytes)`: the new grid, and whether a pixel that was on was hit (R140, R142). -/
def drawSprite (ox oy : Byte) (bytes : List Byte) (f : Framebuffer) : Framebuffer × Bool :=
  blitRows ox.toNat oy.toNat 0 bytes (f, false)

/-- 00E0: every pixel off, VF not written (R141). -/
def execCls (s : State) : Out := .next (s.setFb Framebuffer.blank).advance

/-- DXYN: all N bytes are read first, then the sprite is drawn at (vx, vy), then VF = collision (R143). -/
def execDrw (x y : Reg) (n : Fin 16) (s : State) : Out :=
  match s.readBytes (s.dataAddr 0) n.val with
  | some bytes =>
    .next (((s.setFb (drawSprite (s.getV x) (s.getV y) bytes s.fb).1).setV VF
      (flagByte (drawSprite (s.getV x) (s.getV y) bytes s.fb).2)).advance)
  | none => .next s.raiseIndexBounds

end Sys2Proof.Machine
end

