-- ==== Sys2Proof/Machine/IndexMemory.lean ====
section
/-! DEFINITION. Index-register and memory instructions (spec/42_index_memory.md R120 to R131). An access above 4095
raises the index-bounds violation (spec/20_memory.md R44). -/

namespace Sys2Proof.Machine

/-- ANNN (R121). -/
def execLdI (nnn : BitVec 12) (s : State) : Out := .next (s.setI (addrOf nnn)).advance

/-- FX1E: VF = overflow, I modulo 2^16 (R122). -/
def execAddI (x : Reg) (s : State) : Out :=
  .next (((s.setV VF (indexOverflow s.ireg (s.getV x))).setI (s.ireg + (s.getV x).setWidth 16)).advance)

/-- FX29 (R124). -/
def execLdF (x : Reg) (s : State) : Out := .next (s.setI (fontAddr (s.getV x))).advance

/-- FX33: hundreds, tens, units at I, I+1, I+2; I kept (R126). -/
def execLdB (x : Reg) (s : State) : Out :=
  match s.writeBytes (s.dataAddr 0) (bcdDigits (s.getV x)) with
  | some t => .next t.advance
  | none => .next s.raiseIndexBounds

/-- FX55: V0 to VX at I upward; I kept (R128). -/
def execDump (x : Reg) (s : State) : Out :=
  match s.writeBytes (s.dataAddr 0) (s.regsUpTo x) with
  | some t => .next t.advance
  | none => .next s.raiseIndexBounds

/-- FX65: V0 to VX from I upward; I kept (R130). -/
def execLoad (x : Reg) (s : State) : Out :=
  match s.readBytes (s.dataAddr 0) (x.val + 1) with
  | some bs => .next (s.setVFrom 0 bs).advance
  | none => .next s.raiseIndexBounds

end Sys2Proof.Machine
end

