-- ==== Sys2Proof/Machine/TimersKeys.lean ====
section
/-! DEFINITION. Timer and key instructions (spec/44_timers_keys.md R155 to R165). -/

namespace Sys2Proof.Machine

/-- FX07 (R156). -/
def execLdVxDt (x : Reg) (s : State) : Out := .next (s.setV x s.dt).advance

/-- FX15 (R157). -/
def execLdDtVx (x : Reg) (s : State) : Out := .next (s.setDt (s.getV x)).advance

/-- FX18 (R158). -/
def execLdStVx (x : Reg) (s : State) : Out := .next (s.setSt (s.getV x)).advance

/-- EX9E: the key index is the whole value of Vx (R162). -/
def execSkp (x : Reg) (s : State) : Out :=
  match keyIndex (s.getV x) with
  | some k => .next (s.skipIf (s.keyDown k))
  | none => .next s.raiseIndexBounds

/-- EXA1 (R163). -/
def execSknp (x : Reg) (s : State) : Out :=
  match keyIndex (s.getV x) with
  | some k => .next (s.skipIf (!s.keyDown k))
  | none => .next s.raiseIndexBounds

/-- FX0A: the wait starts; pc keeps the address of this instruction until a `KeyDown` ends it (R164, R166). -/
def execLdVxK (x : Reg) (s : State) : Out := .next ((s.setWaitReg x).setMode .awaitKey)

end Sys2Proof.Machine
end

