-- ==== Sys2Proof/Machine/Events.lean ====
section
/-! DEFINITION. The six atomic events that drive the core (spec/00_scope.md R9): the execute cycle and the host's
events, and how an instruction is laid where the next fetch reads. -/

namespace Sys2Proof.Machine

/-! ## The execute cycle -/

/-- Fetch, resolve, execute (R64). The fetch's bounds check comes first, then the decode (R182). -/
def execCycle (s : State) : Out :=
  match s.fetchWord with
  | none => .next s.raiseIndexBounds
  | some w =>
    match resolve w with
    | some i => exec i s
    | none => execUnknown w s

/-- `Step`: nothing in FATAL (R179) or AWAIT_KEY (R165), one execute cycle in RUN (R64). -/
def stepEvent (s : State) : Out :=
  match s.mode with
  | .fatal => .next s
  | .awaitKey => .next s
  | .run => execCycle s.sealBoot

/-! ## The host's events -/

/-- `Reset`, accepted in every mode (R200): every piece of the machine's state takes its reset value. FONT and the
host's inputs and trace are no state of the machine and stay. Assumptions 2 and 9. -/
def resetEvent (s : State) : Out :=
  .next { State.reset with font := s.font, events := s.events, rnd := s.rnd, free := s.free, reports := s.reports }

/-- `Load(bytes)`: byte j to 0x200 + j, at most 3584 bytes (R203). Ignored in FATAL (R179); refused outside its place
between `Reset` and the first `Step` (R202, R213). Assumption 8. -/
def loadEvent (bytes : List Byte) (s : State) : Out :=
  match s.mode, s.loadable with
  | .fatal, _ => .next s
  | _, false => .refused .loadOutsideBoot
  | _, true =>
    if bytes.length ≤ Config.romMax then
      match s.writeBytes Config.progBase bytes with
      | some t => .next t.sealBoot
      | none => .fault .romLoadFailure
    else .fault .romLoadFailure

/-- One count toward zero (R160). -/
def countDown (b : Byte) : Byte := if b = 0 then 0 else b - 1

/-- `FrameTick`: both timers count down by one, floor 0, in RUN and in AWAIT_KEY (R160). -/
def frameTickEvent (s : State) : Out :=
  match s.mode with
  | .fatal => .next s
  | _ => .next ((s.setDt (countDown s.dt)).setSt (countDown s.st))

/-- The end of a key wait: the key into V[WAITREG], the advance of the waiting FX0A, MODE = RUN (R166). -/
def State.endWait (s : State) (k : Key) : State :=
  ((s.setV s.waitReg (BitVec.ofNat 8 k.val)).advance).setMode .run

/-- `KeyDown(k)`: sets the flag; ends a key wait (R166). -/
def keyDownEvent (k : Key) (s : State) : Out :=
  match s.mode with
  | .fatal => .next s
  | .run => .next (s.setKey k true)
  | .awaitKey => .next ((s.setKey k true).endWait k)

/-- `KeyUp(k)`: clears the flag; never ends a wait (R167). -/
def keyUpEvent (k : Key) (s : State) : Out :=
  match s.mode with
  | .fatal => .next s
  | _ => .next (s.setKey k false)

/-- What one event does. -/
def deliver (e : Event) (s : State) : Out :=
  match e with
  | .reset => resetEvent s
  | .load bytes => loadEvent bytes s
  | .step => stepEvent s
  | .frameTick => frameTickEvent s
  | .keyDown k => keyDownEvent k s
  | .keyUp k => keyUpEvent k s

/-- The events of one frame of the document's timing driver: CYCLES_PER_FRAME steps, then one tick (R160, R5). No rule
depends on the number. -/
def frameEvents (cyclesPerFrame : Nat) : List Event := List.replicate cyclesPerFrame .step ++ [.frameTick]

/-- One poll of the input source: one `KeyDown` for each key reported pressed and one `KeyUp` for each reported released,
one at a time (R166, D22). DESIGN CHOICE: every `KeyDown` comes before every `KeyUp`, each list in the order given; the
spec leaves the order inside a poll to the input source (R166) and the source is silent on it (N16). No meaning and no
step uses this helper; the list `State.events` takes any order. Assumption 28. -/
def pollEvents (pressed released : List Key) : List Event := pressed.map .keyDown ++ released.map .keyUp

/-! ## Laying an instruction at the fetch address -/

/-- Where the next fetch reads: pc, or 0x200 where no fetch is legal at pc. -/
def State.fetchSlot (s : State) : Word := if s.pc.toNat + 1 < Config.memSize then s.pc else Config.resetPc

/-- `s` with the two bytes of `w` at the fetch address, ready to execute them in the very next step: mode RUN, a `Step`
as the next event, boot over as after a `Load`. Assumption 9. -/
def State.placeWord (s : State) (w : Word) : State :=
  let t := (s.poke s.fetchSlot.toNat (w.extractLsb' 8 8)).poke (s.fetchSlot.toNat + 1) (w.extractLsb' 0 8)
  { t with
    pc := s.fetchSlot
    mode := .run
    events := if s.nextEvent = .step then s.events else .step :: s.events
    loadable := false }

end Sys2Proof.Machine
end

