-- ==== Sys2Proof/Machine/Step.lean ====
section
/-! DEFINITION. One step of the machine: the delivery of the next event (spec/00_scope.md R9: every transition is one
event). With no host event waiting it is a `Step`, which executes one instruction. -/

namespace Sys2Proof.Machine

/-- One step. -/
def step (s : State) : Host.Outcome State Fault Refusal := deliver s.nextEvent s.takeEvent

/-- `s` with the instruction whose bits are `w` (numbered as spec/opcode_table.json numbers them, bits from `nbits` up
zero) where the next step fetches. -/
def State.withFetchWord (s : State) (nbits w : Nat) : State := s.placeWord (BitVec.ofNat 16 (w % 2 ^ nbits))

end Sys2Proof.Machine
end

