-- ==== Sys2Proof/Safety.lean ====
section
/-! DEFINITION. What counts as a safe run, and the invariant every step keeps. FATAL is the machine's fault state: "never
a final state of a successful run" (spec/60_exceptions.md R179); a claim about a program proves `neverFatal`. -/

namespace Sys2Proof.Machine

/-- What holds of every state a step reaches from one where it holds: memory is in canonical form, and every reported
word matches no table entry (R177). SP, the key and register indices and the modes are kept legal by their types. -/
def State.Inv (s : State) : Prop :=
  s.mem.wf (unlisted s.font) = true ∧ ∀ w ∈ s.reports, resolve w = none

/-- The run of `n` steps from `s` completes outside FATAL. -/
def successful (n : Nat) (s : State) : Prop := ∃ t, Sys2Proof.core.run n s = .next t ∧ t.mode ≠ .fatal

/-- No step of a run from `s` stops or enters FATAL. -/
def neverFatal (s : State) : Prop := ∀ n, successful n s

end Sys2Proof.Machine
end

