-- ==== Sys2Proof/Certificates/Slice0/Obligations.lean ====
section
/-! DEFINITION. The statements for the provers. Each docstring names the rule of spec/ it formalises, or says on which
decision or assumption it rests. First the words the statements are made of. -/

namespace Sys2Proof.Claims

open Sys2Proof.Machine

/-- The number of a word of format A (R62). -/
def wordA (op : Nat) (nnn : BitVec 12) : Nat := 0x1000 * op + nnn.toNat

/-- The number of a word of format XK or XF (R62). -/
def wordXK (op : Nat) (x : Reg) (kk : Nat) : Nat := 0x1000 * op + 0x100 * x.val + kk

/-- The number of a word of format XY or XYN (R62). -/
def wordXYN (op : Nat) (x y : Reg) (n : Nat) : Nat := 0x1000 * op + 0x100 * x.val + 0x10 * y.val + n

/-- Every byte of memory reads as before. -/
def sameBytes (s t : State) : Prop := ∀ a, t.byteAt a = s.byteAt a

/-- Every register but those in `dst` is as before. -/
def sameRegsBut (dst : Reg → Prop) (s t : State) : Prop := ∀ r, ¬ dst r → t.getV r = s.getV r

/-- Only pc is written: every register, I, the stack, the timers, the keys, the framebuffer, memory, MODE and WAITREG are
as before, and so are the model's own fields. -/
def onlyPc (s t : State) : Prop := t = { s with pc := t.pc } ∧ sameBytes s t

/-- Only V and pc are written. -/
def onlyRegs (s t : State) : Prop := t = { s with v := t.v, pc := t.pc } ∧ sameBytes s t

/-- V[x] takes the value `n`, pc advances by 2 and nothing else changes. -/
def writesReg (s t : State) (x : Reg) (n : Nat) : Prop :=
  (t.getV x).toNat = n ∧ sameRegsBut (· = x) s t ∧ t.pc = s.pc + 2 ∧ onlyRegs s t

/-- V[x] takes the value `n`, VF the flag unless x is 15, pc advances by 2 and nothing else changes. -/
def writesRegAndFlag (s t : State) (x : Reg) (n flag : Nat) : Prop :=
  (t.getV x).toNat = n ∧ (x ≠ VF → (t.getV VF).toNat = flag) ∧ sameRegsBut (fun r => r = x ∨ r = VF) s t ∧
    t.pc = s.pc + 2 ∧ onlyRegs s t

/-- pc advances by 4 if `c` holds and by 2 if not, and nothing else changes. -/
def skipsWhen (c : Prop) (s t : State) : Prop := (c → t.pc = s.pc + 4) ∧ (¬ c → t.pc = s.pc + 2) ∧ onlyPc s t

/-- The flag value of a condition. -/
def flagOf (c : Prop) [Decidable c] : Nat := if c then 1 else 0

/-- The state of a `Step` that executes: the event taken and boot over, nothing else. -/
def executing (s : State) : State := s.takeEvent.sealBoot

/-- Bit (x, y) of the grid lies under a 1-bit of the N sprite bytes at I, drawn at origin (ox, oy) (R142). -/
def covered (s : State) (ox oy n : Nat) (x : Fin 64) (y : Fin 32) : Prop :=
  ∃ r j, r < n ∧ j < 8 ∧ (s.byteAt (s.dataAddr r)).getMsbD j = true ∧ (ox + j) % 64 = x.val ∧ (oy + r) % 32 = y.val

/-- The instruction's own cause of an index-bounds violation (R178). -/
def violates (i : Instr) (s : State) : Prop :=
  match i with
  | .drw _ _ n => 0 < n.val ∧ 4095 < s.ireg.toNat + n.val - 1
  | .ldB _ => 4095 < s.ireg.toNat + 2
  | .dump x => 4095 < s.ireg.toNat + x.val
  | .load x => 4095 < s.ireg.toNat + x.val
  | .skp x => 15 < (s.getV x).toNat
  | .sknp x => 15 < (s.getV x).toNat
  | _ => False

/-- The registers an instruction names as its destination, the flag aside (R11). -/
def destination (i : Instr) (r : Reg) : Prop :=
  match i with
  | .ldImm x _ | .addImm x _ | .ldReg x _ | .orReg x _ | .andReg x _ | .xorReg x _ | .addReg x _ | .subReg x _
  | .shr x _ | .subn x _ | .shl x _ | .rnd x _ | .ldVxDt x => r = x
  | .load x => r.val ≤ x.val
  | _ => False

/-- The seven instructions that write VF as a flag (R11). -/
def writesFlag (i : Instr) : Prop :=
  match i with
  | .addReg _ _ | .subReg _ _ | .shr _ _ | .subn _ _ | .shl _ _ | .addI _ | .drw _ _ _ => True
  | _ => False

/-- The bytes an instruction stores to, by the address its meaning uses (R46). -/
def stores (i : Instr) (s : State) (a : Nat) : Prop :=
  match i with
  | .ldB _ => ∃ j, j ≤ 2 ∧ a = s.dataAddr j
  | .dump x => ∃ j, j ≤ x.val ∧ a = s.dataAddr j
  | _ => False

/-- The absolute target of a jump or call, V0 added for BNNN; none for the others (R91). -/
def targetEven (i : Instr) (s : State) : Prop :=
  match i with
  | .jp nnn | .call nnn => nnn.toNat % 2 = 0
  | .jpV0 nnn => (nnn.toNat + (s.getV 0).toNat) % 2 = 0
  | _ => True

/-- The instructions that set pc to a target: the jumps, call and return (R80). -/
def redirects (i : Instr) : Prop :=
  match i with
  | .jp _ | .call _ | .jpV0 _ | .ret => True
  | _ => False

/-- The six conditional skips (R91). -/
def isSkip (i : Instr) : Prop :=
  match i with
  | .seImm _ _ | .sneImm _ _ | .seReg _ _ | .sneReg _ _ | .skp _ | .sknp _ => True
  | _ => False

/-- pc is even and so is every stack entry, dead ones included (R45). -/
def evenPc (s : State) : Prop := s.pc.toNat % 2 = 0 ∧ ∀ k : Fin 16, s.stack[k].toNat % 2 = 0

end Sys2Proof.Claims

open Sys2Proof Sys2Proof.Machine Sys2Proof.Claims

/-! ## Reset, decoding, the step -/

/-- R26 and R49 as the event `Reset` (R200) leaves them, from every state and mode. The values of pc and FB are the
source's, the others the spec's decision D20 (assumption 1); FONT is the parameter of the machine (assumption 2). -/
def Obligations.ResetRestoresEveryResetValue : Prop :=
  ∀ s : State, ∃ t, deliver .reset s = .next t ∧
    t.pc = 0x200 ∧ (∀ x y, t.pixel x y = false) ∧ (∀ r, t.getV r = 0) ∧ t.ireg = 0 ∧ t.sp = 0 ∧
    (∀ k : Fin 16, t.stack[k] = 0) ∧ t.dt = 0 ∧ t.st = 0 ∧ (∀ k, t.keyDown k = false) ∧ t.mode = .run ∧ t.waitReg = 0 ∧
    (∀ d : Fin 80, t.byteAt d.val = s.font[d]) ∧ (∀ a, 80 ≤ a → t.byteAt a = 0)

/-- R65: the first entry of the table that matches decides, and a word that matches none is UNKNOWN. -/
def Obligations.ResolveTakesFirstMatchingRow : Prop :=
  ∀ w : Word,
    (∀ k (hk : k < instrTable.length), instrTable[k].hits w = true →
      (∀ j (hj : j < k), (instrTable[j]'(by omega)).hits w = false) → resolve w = some (instrTable[k].build w)) ∧
    ((∀ r ∈ instrTable, r.hits w = false) → resolve w = none)

/-- The first three and a few more of the sample words of spec/95_test_vectors.md S1 decode as listed there, and so does
the word 0x00E1, which only `0NNN` matches. -/
def Obligations.SampleWordsDecodeAsListed : Prop :=
  decode [0x00, 0xE0] = .ok (.cls, []) ∧ decode [0x00, 0xEE] = .ok (.ret, []) ∧
  decode [0x12, 0x34] = .ok (.jp 0x234, []) ∧ decode [0x34, 0x56] = .ok (.seImm 4 0x56, []) ∧
  decode [0x8A, 0xB7] = .ok (.subn 0xA 0xB, []) ∧ decode [0xDE, 0xF1] = .ok (.drw 0xE 0xF 1, []) ∧
  decode [0xF1, 0x65] = .ok (.load 1, []) ∧ decode [0x00, 0xE1] = .ok (.sys 0x0E1, []) ∧
  decode [0x8A, 0xB8] = .error (.decodeMiss 0x8AB8)

/-- Decoding the encoding of a well-formed instruction gives it back with the bytes that follow, for every operand value. -/
def Obligations.DecodeOfEncodeIsTheInstruction : Prop :=
  ∀ (i : Instr) (rest : List Byte), i.wf = true → decode (encode i ++ rest) = .ok (i, rest)

/-- A word that decodes is the encoding of the well-formed instruction it decodes to: no bit of a word is dropped. -/
def Obligations.EncodeOfDecodeIsTheWord : Prop :=
  ∀ (w : Word) (i : Instr), resolve w = some i → i.wf = true ∧ encodeWord i = w

/-- The decode misses are exactly the words R70 lists, by their digits. -/
def Obligations.DecodeMissWordsAreExactlyTheListed : Prop :=
  ∀ w : Word, resolve w = none ↔
    let d3 := w.toNat / 4096; let d0 := w.toNat % 16; let kk := w.toNat % 256
    (d3 = 5 ∧ d0 ≠ 0) ∨ (d3 = 8 ∧ d0 ∈ [8, 9, 0xA, 0xB, 0xC, 0xD, 0xF]) ∨ (d3 = 9 ∧ d0 ≠ 0) ∨
    (d3 = 0xE ∧ kk ≠ 0x9E ∧ kk ≠ 0xA1) ∨
    (d3 = 0xF ∧ kk ∉ [0x07, 0x0A, 0x15, 0x18, 0x1E, 0x29, 0x33, 0x55, 0x65])

/-- R67 by the table: exactly 0x00E0 and 0x00EE match more than one entry. -/
def Obligations.OnlyTwoWordsMatchTwoRows : Prop :=
  ∀ w : Word, 1 < (instrTable.filter fun r => r.hits w).length ↔ w = 0x00E0 ∨ w = 0x00EE

/-- R64: in RUN, when the two bytes at pc decode to `i`, the next step is exec of `i`; around it the step only takes the
event from the model's list and ends boot (assumptions 4 and 8). -/
def Obligations.StepRunsTheDecodedInstruction : Prop :=
  ∀ (s : State) (first second : Byte) (i : Instr),
    s.nextEvent = .step → s.mode = .run → s.pc.toNat + 1 ≤ 4095 →
    s.byteAt s.pc.toNat = first → s.byteAt (s.pc.toNat + 1) = second → decode [first, second] = .ok (i, []) →
    step s = exec i (executing s)

/-- R90: a word that matches no entry is reported once and pc advances; no other state of the machine changes. Of the
model's own fields the report list takes the word (assumption 7), the event list loses the event taken (assumption 4) and
`loadable` ends (assumption 8), as around every executing step. -/
def Obligations.DecodeMissIsReportedAndSkipped : Prop :=
  ∀ (s : State) (w : Word),
    s.nextEvent = .step → s.mode = .run → s.fetchWord = some w → resolve w = none →
    ∃ t, step s = .next t ∧ t.reports = w :: s.reports ∧ t.pc = s.pc + 2 ∧ sameBytes s t ∧
      t = { executing s with reports := t.reports, pc := t.pc }

/-- An instruction laid where the next step fetches (assumption 9) is the one the very next step runs, whatever the mode,
pc and waiting events were. -/
def Obligations.PlacedWordIsTheNextInstruction : Prop :=
  ∀ (s : State) (w : Word) (i : Instr), s.mem.wf (unlisted s.font) = true → resolve w = some i →
    step (s.withFetchWord 16 w.toNat) = exec i (executing (s.withFetchWord 16 w.toNat))

/-! ## Register and ALU instructions -/

/-- R101, R102, R103: set and add immediate, copy; one register written, no flag, no exception. -/
def Obligations.LoadsAndImmediateAddWriteOneRegister : Prop :=
  ∀ (x y : Reg) (kk : Byte) (s : State),
    (∃ t, exec (.ldImm x kk) s = .next t ∧ writesReg s t x kk.toNat) ∧
    (∃ t, exec (.addImm x kk) s = .next t ∧ writesReg s t x (((s.getV x).toNat + kk.toNat) % 256)) ∧
    (∃ t, exec (.ldReg x y) s = .next t ∧ writesReg s t x (s.getV y).toNat) ∧
    (encodeWord (.ldImm x kk)).toNat = wordXK 6 x kk.toNat ∧ (encodeWord (.addImm x kk)).toNat = wordXK 7 x kk.toNat ∧
    (encodeWord (.ldReg x y)).toNat = wordXYN 8 x y 0

/-- R104, R105, R106: the bitwise operations; that VF is not written unless it is Vx is the spec's decision D9
(assumption 18). -/
def Obligations.BitwiseOperationsWriteOnlyTheirRegister : Prop :=
  ∀ (x y : Reg) (s : State),
    (∃ t, exec (.orReg x y) s = .next t ∧ writesReg s t x ((s.getV x).toNat ||| (s.getV y).toNat)) ∧
    (∃ t, exec (.andReg x y) s = .next t ∧ writesReg s t x ((s.getV x).toNat &&& (s.getV y).toNat)) ∧
    (∃ t, exec (.xorReg x y) s = .next t ∧ writesReg s t x ((s.getV x).toNat ^^^ (s.getV y).toNat))

/-- R107: add-with-carry, with every X and Y; where X is 15 the sum stays in VF (R100). -/
def Obligations.AddWithCarrySetsSumAndCarry : Prop :=
  ∀ (x y : Reg) (s : State),
    (∃ t, exec (.addReg x y) s = .next t ∧
      writesRegAndFlag s t x (((s.getV x).toNat + (s.getV y).toNat) % 256)
        (flagOf ((s.getV x).toNat + (s.getV y).toNat > 255))) ∧
    (encodeWord (.addReg x y)).toNat = wordXYN 8 x y 4

/-- R108: sub-with-borrow, VF = NOT borrow, with every X and Y. -/
def Obligations.SubWithBorrowSetsDifferenceAndNotBorrow : Prop :=
  ∀ (x y : Reg) (s : State),
    (∃ t, exec (.subReg x y) s = .next t ∧
      writesRegAndFlag s t x ((256 + (s.getV x).toNat - (s.getV y).toNat) % 256)
        (flagOf (¬ (s.getV x).toNat < (s.getV y).toNat))) ∧
    (encodeWord (.subReg x y)).toNat = wordXYN 8 x y 5

/-- R110: vy - vx into Vx, VF = NOT borrow; the operand order is the spec's decision D11 (assumption 18). -/
def Obligations.SubReverseSetsDifferenceAndNotBorrow : Prop :=
  ∀ (x y : Reg) (s : State), ∃ t, exec (.subn x y) s = .next t ∧
    writesRegAndFlag s t x ((256 + (s.getV y).toNat - (s.getV x).toNat) % 256)
      (flagOf (¬ (s.getV y).toNat < (s.getV x).toNat))

/-- R109, R111: the shifts move Vx by one place in its own register and the bit moved out into VF, for every Y; that Vy
is not read is the spec's decision D10 (assumption 18). -/
def Obligations.ShiftsMoveOnePlaceAndSetTheBitMovedOut : Prop :=
  ∀ (x y : Reg) (s : State),
    (∃ t, exec (.shr x y) s = .next t ∧ writesRegAndFlag s t x ((s.getV x).toNat / 2) ((s.getV x).toNat % 2)) ∧
    (∃ t, exec (.shl x y) s = .next t ∧
      writesRegAndFlag s t x (2 * (s.getV x).toNat % 256) ((s.getV x).toNat / 128))

/-- R113, R114: the result is the draw modulo KK + 1, so at most KK, for every draw: one the random source has lined up,
and the free value when it has none (assumption 3). The modulus form is the spec's decision D12. -/
def Obligations.RandomResultIsTheDrawModuloKkPlusOne : Prop :=
  ∀ (x : Reg) (kk : Byte) (s : State), ∃ t, exec (.rnd x kk) s = .next t ∧
    (t.getV x).toNat = s.rndValue % (kk.toNat + 1) ∧ (t.getV x).toNat ≤ kk.toNat ∧ sameRegsBut (· = x) s t ∧
    t.pc = s.pc + 2 ∧ sameBytes s t ∧ t = { s with v := t.v, pc := t.pc, rnd := t.rnd, free := t.free } ∧
    (∀ r rs, s.rnd = r :: rs → s.rndValue = r ∧ t.rnd = rs) ∧ (s.rnd = [] → t.rnd = [] ∧ t.free = s.free + 1)

/-! ## Control flow -/

/-- R85, R86, R87, R88: the four value skips. -/
def Obligations.ValueSkipsAdvanceByOneOrTwoWords : Prop :=
  ∀ (x y : Reg) (kk : Byte) (s : State),
    (∃ t, exec (.seImm x kk) s = .next t ∧ skipsWhen (s.getV x = kk) s t) ∧
    (∃ t, exec (.sneImm x kk) s = .next t ∧ skipsWhen (s.getV x ≠ kk) s t) ∧
    (∃ t, exec (.seReg x y) s = .next t ∧ skipsWhen (s.getV x = s.getV y) s t) ∧
    (∃ t, exec (.sneReg x y) s = .next t ∧ skipsWhen (s.getV x ≠ s.getV y) s t) ∧
    (encodeWord (.seImm x kk)).toNat = wordXK 3 x kk.toNat ∧ (encodeWord (.sneImm x kk)).toNat = wordXK 4 x kk.toNat ∧
    (encodeWord (.seReg x y)).toNat = wordXYN 5 x y 0 ∧ (encodeWord (.sneReg x y)).toNat = wordXYN 9 x y 0

/-- R82, R89: the jumps set pc to NNN, and to NNN + V0 without reduction. -/
def Obligations.JumpsSetPcToTheirTarget : Prop :=
  ∀ (nnn : BitVec 12) (s : State),
    (∃ t, exec (.jp nnn) s = .next t ∧ t.pc.toNat = nnn.toNat ∧ onlyPc s t) ∧
    (∃ t, exec (.jpV0 nnn) s = .next t ∧ t.pc.toNat = nnn.toNat + (s.getV 0).toNat ∧ onlyPc s t) ∧
    (encodeWord (.jp nnn)).toNat = wordA 1 nnn ∧ (encodeWord (.jpV0 nnn)).toNat = wordA 0xB nnn

/-- R81: `0NNN` only advances pc, and reports nothing; that it has no effect is the spec's decision D4 (assumption 16). -/
def Obligations.MachineRoutineCallOnlyAdvances : Prop :=
  ∀ (nnn : BitVec 12) (s : State), ∃ t, exec (.sys nnn) s = .next t ∧ t.pc.toNat = (s.pc.toNat + 2) % 65536 ∧
    onlyPc s t

/-- R83: call pushes its own address while SP is below 16 and jumps in every case. -/
def Obligations.CallPushesItsAddressAndJumps : Prop :=
  ∀ (nnn : BitVec 12) (s : State),
    (∃ t, exec (.call nnn) s = .next t ∧ t.pc.toNat = nnn.toNat ∧ sameBytes s t ∧
      t = { s with pc := t.pc, sp := t.sp, stack := t.stack } ∧
      (∀ k : Fin 16, s.sp.val = k.val → t.sp.val = s.sp.val + 1 ∧ t.stack[k] = s.pc) ∧
      (∀ k : Fin 16, s.sp.val ≠ k.val → t.stack[k] = s.stack[k]) ∧
      (s.sp.val = 16 → t.sp = s.sp)) ∧
    (encodeWord (.call nnn)).toNat = wordA 2 nnn

/-- R84: return pops the most recent entry and goes to the word after it; on an empty stack it only advances. -/
def Obligations.ReturnPopsAndGoesPastTheCall : Prop :=
  ∀ s : State,
    (∃ t, exec .ret s = .next t ∧ sameBytes s t ∧ t = { s with pc := t.pc, sp := t.sp } ∧
      (∀ k : Fin 16, s.sp.val = k.val + 1 → t.sp.val = k.val ∧ t.pc = s.stack[k] + 2) ∧
      (s.sp.val = 0 → t.sp = s.sp ∧ t.pc = s.pc + 2)) ∧
    encodeWord .ret = 0x00EE

/-- The round trip the spec derives from R83 and R84: a call that pushed, then a return with the stack as the call left
it, gives the address after the call and the depth before it. -/
def Obligations.CallThenReturnComesBack : Prop :=
  ∀ (nnn : BitVec 12) (s t u : State), s.sp.val < 16 → exec (.call nnn) s = .next t → u.sp = t.sp → u.stack = t.stack →
    ∃ w, exec .ret u = .next w ∧ w.pc = s.pc + 2 ∧ w.sp = s.sp

/-! ## Index register and memory -/

/-- R121: set-I-NNN. -/
def Obligations.SetIndexWritesOnlyIndex : Prop :=
  ∀ (nnn : BitVec 12) (s : State),
    (∃ t, exec (.ldI nnn) s = .next t ∧ t.ireg.toNat = nnn.toNat ∧ t.pc = s.pc + 2 ∧ sameBytes s t ∧
      t = { s with ireg := t.ireg, pc := t.pc }) ∧
    (encodeWord (.ldI nnn)).toNat = wordA 0xA nnn

/-- R122: I + Vx modulo 2^16 and VF = 1 exactly when the sum exceeds 0x0FFF; the limit is the spec's decision D13
(assumption 11). -/
def Obligations.AddToIndexWrapsAndSetsOverflow : Prop :=
  ∀ (x : Reg) (s : State), ∃ t, exec (.addI x) s = .next t ∧
    t.ireg.toNat = (s.ireg.toNat + (s.getV x).toNat) % 65536 ∧
    (t.getV VF).toNat = flagOf (s.ireg.toNat + (s.getV x).toNat > 0x0FFF) ∧
    sameRegsBut (· = VF) s t ∧ t.pc = s.pc + 2 ∧ sameBytes s t ∧ t = { s with v := t.v, ireg := t.ireg, pc := t.pc }

/-- R124: I = 5 * Vx, not masked; FONT_BASE = 0 and the formula are the spec's decision D14 (assumption 10). -/
def Obligations.FontAddressIsFiveTimesTheDigit : Prop :=
  ∀ (x : Reg) (s : State), ∃ t, exec (.ldF x) s = .next t ∧ t.ireg.toNat = 5 * (s.getV x).toNat ∧ t.pc = s.pc + 2 ∧
    sameBytes s t ∧ t = { s with ireg := t.ireg, pc := t.pc }

/-- R126: the decimal digits of Vx at I, I+1, I+2, every other byte as before; past 4095 the violation, which is
a next state by assumption 6. The premise is the canonical form every step keeps. -/
def Obligations.BcdStoresThreeDigitsAtIndex : Prop :=
  ∀ (x : Reg) (s : State), s.mem.wf (unlisted s.font) = true →
    (s.dataAddr 2 ≤ 4095 → ∃ t, exec (.ldB x) s = .next t ∧
      (t.byteAt (s.dataAddr 0)).toNat = (s.getV x).toNat / 100 ∧
      (t.byteAt (s.dataAddr 1)).toNat = (s.getV x).toNat / 10 % 10 ∧
      (t.byteAt (s.dataAddr 2)).toNat = (s.getV x).toNat % 10 ∧
      (∀ a, ¬ stores (.ldB x) s a → t.byteAt a = s.byteAt a) ∧
      t.pc = s.pc + 2 ∧ t = { s with mem := t.mem, pc := t.pc }) ∧
    (4095 < s.dataAddr 2 → ∃ t, exec (.ldB x) s = .next t ∧ t.mode = .fatal) ∧
    (encodeWord (.ldB x)).toNat = wordXK 0xF x 0x33

/-- R128: V0 to VX at I upward, X itself included, every other byte as before; past 4095 the violation, which is a next
state by assumption 6. The premise is the canonical form every step keeps. -/
def Obligations.DumpStoresRegistersUpToX : Prop :=
  ∀ (x : Reg) (s : State), s.mem.wf (unlisted s.font) = true →
    (s.dataAddr x.val ≤ 4095 → ∃ t, exec (.dump x) s = .next t ∧
      (∀ r : Reg, r.val ≤ x.val → t.byteAt (s.dataAddr r.val) = s.getV r) ∧
      (∀ a, ¬ stores (.dump x) s a → t.byteAt a = s.byteAt a) ∧
      t.pc = s.pc + 2 ∧ t = { s with mem := t.mem, pc := t.pc }) ∧
    (4095 < s.dataAddr x.val → ∃ t, exec (.dump x) s = .next t ∧ t.mode = .fatal) ∧
    (encodeWord (.dump x)).toNat = wordXK 0xF x 0x55

/-- R130: V0 to VX from I upward, X itself included, the registers above X as before; past 4095 the violation,
which is a next state by assumption 6. -/
def Obligations.LoadReadsRegistersUpToX : Prop :=
  ∀ (x : Reg) (s : State),
    (s.dataAddr x.val ≤ 4095 → ∃ t, exec (.load x) s = .next t ∧
      (∀ r : Reg, r.val ≤ x.val → t.getV r = s.byteAt (s.dataAddr r.val)) ∧ sameRegsBut (fun r => r.val ≤ x.val) s t ∧
      t.pc = s.pc + 2 ∧ onlyRegs s t) ∧
    (4095 < s.dataAddr x.val → ∃ t, exec (.load x) s = .next t ∧ t.mode = .fatal) ∧
    (encodeWord (.load x)).toNat = wordXK 0xF x 0x65

/-- The round trip quoted in R130: a dump of V0 to VX, then, with any registers but the same memory and I, a load of V0 to
VX, restores them. -/
def Obligations.DumpThenLoadRestoresRegisters : Prop :=
  ∀ (x : Reg) (s t u : State), s.mem.wf (unlisted s.font) = true → s.dataAddr x.val ≤ 4095 →
    exec (.dump x) s = .next t → u.mem = t.mem → u.font = t.font → u.ireg = t.ireg →
    ∃ w, exec (.load x) u = .next w ∧ ∀ r : Reg, r.val ≤ x.val → w.getV r = s.getV r

/-- R43, R44: a one-byte write inside memory changes its cell and nothing else; at an address above 4095 neither a write
nor a read is legal. The premise is the canonical form every step keeps. -/
def Obligations.MemoryWriteChangesItsCellOnly : Prop :=
  ∀ (s : State) (a : Nat) (b : Byte), s.mem.wf (unlisted s.font) = true →
    (a ≤ 4095 → ∃ t, s.memWrite a b = some t ∧ t.memRead a = some b ∧
      (∀ a', a' ≠ a → t.memRead a' = s.memRead a') ∧ t = { s with mem := t.mem }) ∧
    (4095 < a → s.memWrite a b = none ∧ s.memRead a = none)

/-- R54: the fetch after a dump reads the bytes the dump stored, where they lie at the new pc. -/
def Obligations.NextFetchSeesDumpedBytes : Prop :=
  ∀ (x : Reg) (s t : State) (r q : Reg), s.mem.wf (unlisted s.font) = true → s.dataAddr x.val ≤ 4095 →
    exec (.dump x) s = .next t → r.val + 1 = q.val → q.val ≤ x.val → t.pc.toNat = s.dataAddr r.val →
    t.fetchWord = some (wordOfBytes (s.getV r) (s.getV q))

/-! ## Framebuffer -/

/-- R141: every pixel off and nothing else changed but pc. -/
def Obligations.ClearScreenTurnsEveryPixelOff : Prop :=
  ∀ s : State,
    (∃ t, exec .cls s = .next t ∧ (∀ x y, t.pixel x y = false) ∧ t.pc = s.pc + 2 ∧ sameBytes s t ∧
      t = { s with fb := t.fb, pc := t.pc }) ∧
    encodeWord .cls = 0x00E0

/-- R142, R143: draw-sprite flips exactly the covered pixels, wrapping at both edges, and VF says whether one of them was
on; N = 0 reads no memory. The operand binding is the spec's decision D16 (assumption 20). -/
def Obligations.DrawFlipsCoveredPixelsAndReportsCollision : Prop :=
  ∀ (x y : Reg) (n : Fin 16) (s : State), (n.val = 0 ∨ s.dataAddr (n.val - 1) ≤ 4095) →
    ∃ t, exec (.drw x y n) s = .next t ∧
      (∀ px py, covered s (s.getV x).toNat (s.getV y).toNat n.val px py → t.pixel px py = !s.pixel px py) ∧
      (∀ px py, ¬ covered s (s.getV x).toNat (s.getV y).toNat n.val px py → t.pixel px py = s.pixel px py) ∧
      (t.getV VF = 0 ∨ t.getV VF = 1) ∧
      (t.getV VF = 1 ↔
        ∃ px py, covered s (s.getV x).toNat (s.getV y).toNat n.val px py ∧ s.pixel px py = true) ∧
      sameRegsBut (· = VF) s t ∧ t.pc = s.pc + 2 ∧ sameBytes s t ∧ t = { s with v := t.v, fb := t.fb, pc := t.pc }

/-- R144 (d), derived by the spec from R142: the same sprite drawn twice at the same origin restores the grid. The second
draw collides exactly when a covered pixel was off before the first, by R142 and R144 (b); R144 (d) says "when the sprite
has a 1-bit", which is so of a grid with a covered pixel off (assumption 26). With X or Y = 15 the first draw moves the
origin, so those forms are not the same origin and are left to the statement before. -/
def Obligations.DrawTwiceRestoresTheGrid : Prop :=
  ∀ (x y : Reg) (n : Fin 16) (s t : State), x ≠ VF → y ≠ VF → (n.val = 0 ∨ s.dataAddr (n.val - 1) ≤ 4095) →
    exec (.drw x y n) s = .next t →
    ∃ u, exec (.drw x y n) t = .next u ∧ (∀ px py, u.pixel px py = s.pixel px py) ∧
      (u.getV VF = 1 ↔
        ∃ px py, covered s (s.getV x).toNat (s.getV y).toNat n.val px py ∧ s.pixel px py = false)

/-! ## Timers and keys -/

/-- R156, R157, R158: reading DT, loading DT, loading ST. -/
def Obligations.TimerInstructionsMoveOneByte : Prop :=
  ∀ (x : Reg) (s : State),
    (∃ t, exec (.ldVxDt x) s = .next t ∧ writesReg s t x s.dt.toNat) ∧
    (∃ t, exec (.ldDtVx x) s = .next t ∧ t.dt = s.getV x ∧ t.pc = s.pc + 2 ∧ sameBytes s t ∧
      t = { s with dt := t.dt, pc := t.pc }) ∧
    (∃ t, exec (.ldStVx x) s = .next t ∧ t.st = s.getV x ∧ t.pc = s.pc + 2 ∧ sameBytes s t ∧
      t = { s with st := t.st, pc := t.pc }) ∧
    (encodeWord (.ldVxDt x)).toNat = wordXK 0xF x 0x07 ∧ (encodeWord (.ldDtVx x)).toNat = wordXK 0xF x 0x15 ∧
    (encodeWord (.ldStVx x)).toNat = wordXK 0xF x 0x18

/-- R162, R163: the key skips read the flag of the key Vx names; a value above 15 is the violation, which is the spec's
decision D17 (assumption 21) and a next state by assumption 6. -/
def Obligations.KeySkipsReadTheKeyVxNames : Prop :=
  ∀ (x : Reg) (s : State),
    (∀ k : Key, (s.getV x).toNat = k.val →
      (∃ t, exec (.skp x) s = .next t ∧ skipsWhen (s.keyDown k = true) s t) ∧
      (∃ t, exec (.sknp x) s = .next t ∧ skipsWhen (s.keyDown k = false) s t)) ∧
    (15 < (s.getV x).toNat →
      (∃ t, exec (.skp x) s = .next t ∧ t.mode = .fatal) ∧ (∃ t, exec (.sknp x) s = .next t ∧ t.mode = .fatal))

/-- R164: the key wait latches X, enters AWAIT_KEY and leaves pc; the faithful behaviour is the spec's decision D18
(assumption 22). -/
def Obligations.KeyWaitLatchesXAndHoldsPc : Prop :=
  ∀ (x : Reg) (s : State), ∃ t, exec (.ldVxK x) s = .next t ∧ t.mode = .awaitKey ∧ t.waitReg = x ∧ t.pc = s.pc ∧
    (∀ r, t.getV r = s.getV r) ∧ sameBytes s t ∧ t = { s with mode := t.mode, waitReg := t.waitReg }

/-- R165: while the machine waits, `Step` does nothing, `FrameTick` and `KeyUp` go on as usual, and only `KeyDown` or
`Reset` ends the wait. -/
def Obligations.KeyWaitEndsOnlyByKeyDownOrReset : Prop :=
  ∀ s : State, s.mode = .awaitKey →
    deliver .step s = .next s ∧
    (∃ t, deliver .frameTick s = .next t ∧ t.dt.toNat = s.dt.toNat - 1 ∧ t.st.toNat = s.st.toNat - 1 ∧
      t = { s with dt := t.dt, st := t.st }) ∧
    (∀ k, ∃ t, deliver (.keyUp k) s = .next t ∧ t.keyDown k = false ∧ (∀ j, j ≠ k → t.keyDown j = s.keyDown j) ∧
      t = { s with keys := t.keys }) ∧
    (∀ e t, deliver e s = .next t → t.mode ≠ .awaitKey → e = .reset ∨ ∃ k, e = .keyDown k)

/-- R166: `KeyDown` sets its flag; in AWAIT_KEY it also writes the key to V[WAITREG], advances pc and returns to RUN. One
event per key is the spec's decision D22 (assumption 4). -/
def Obligations.KeyDownSetsItsFlagAndEndsAWait : Prop :=
  ∀ (k : Key) (s : State), s.mode ≠ .fatal →
    ∃ t, deliver (.keyDown k) s = .next t ∧ t.keyDown k = true ∧ (∀ j, j ≠ k → t.keyDown j = s.keyDown j) ∧
      t.mode = .run ∧ sameBytes s t ∧ t = { s with keys := t.keys, v := t.v, pc := t.pc, mode := t.mode } ∧
      (s.mode = .run → (∀ r, t.getV r = s.getV r) ∧ t.pc = s.pc) ∧
      (s.mode = .awaitKey → (t.getV s.waitReg).toNat = k.val ∧ sameRegsBut (· = s.waitReg) s t ∧ t.pc = s.pc + 2)

/-- R167: `KeyUp` clears its flag and changes nothing else; in FATAL it does nothing. -/
def Obligations.KeyUpClearsItsFlagOnly : Prop :=
  ∀ (k : Key) (s : State), ∃ t, deliver (.keyUp k) s = .next t ∧ (s.mode = .fatal → t = s) ∧
    (s.mode ≠ .fatal → t.keyDown k = false ∧ (∀ j, j ≠ k → t.keyDown j = s.keyDown j) ∧ t = { s with keys := t.keys })

/-- R160: `FrameTick` counts both timers down by one, not below zero, in RUN and AWAIT_KEY, and changes nothing else. -/
def Obligations.FrameTickCountsBothTimersDown : Prop :=
  ∀ s : State, ∃ t, deliver .frameTick s = .next t ∧ (s.mode = .fatal → t = s) ∧
    (s.mode ≠ .fatal → t.dt.toNat = s.dt.toNat - 1 ∧ t.st.toNat = s.st.toNat - 1 ∧ t = { s with dt := t.dt, st := t.st })

/-- R203: `Load` copies the bytes verbatim from 0x200 and changes nothing else; more than 3584 bytes is a ROM load failure
(R187). That it is refused out of its place, and that the model remembers whether it is in it, is assumption 8. -/
def Obligations.RomLoadCopiesBytesOrFails : Prop :=
  ∀ (bytes : List Byte) (s : State), s.mode ≠ .fatal →
    (s.loadable = true → bytes.length ≤ 3584 → s.mem.wf (unlisted s.font) = true →
      ∃ t, deliver (.load bytes) s = .next t ∧ (∀ j (hj : j < bytes.length), t.byteAt (0x200 + j) = bytes[j]) ∧
        (∀ a, a < 0x200 ∨ 0x200 + bytes.length ≤ a → t.byteAt a = s.byteAt a) ∧
        t = { s with mem := t.mem, loadable := false }) ∧
    (s.loadable = true → 3584 < bytes.length → deliver (.load bytes) s = .fault .romLoadFailure) ∧
    (s.loadable = false → deliver (.load bytes) s = .refused .loadOutsideBoot)

/-! ## The fatal state -/

/-- R178: an instruction executed in RUN answers a next state, and that state is FATAL exactly for the causes R178 lists;
the key-index cause is the spec's decision D17 and the violation as a next state is assumption 6. -/
def Obligations.FatalExactlyOnTheListedCauses : Prop :=
  ∀ (i : Instr) (s : State), s.mode = .run → ∃ t, exec i s = .next t ∧ (t.mode = .fatal ↔ violates i s)

/-- R44, R178: the fetch with pc above 4094 is a violation, whatever the parity of pc (D6, assumption 15); that it is a next
state is assumption 6, and that the event comes from the model's list assumption 4. -/
def Obligations.FetchPastMemoryIsFatal : Prop :=
  ∀ s : State, s.nextEvent = .step → s.mode = .run → 4094 < s.pc.toNat → ∃ t, step s = .next t ∧ t.mode = .fatal

/-- R179, R200: in FATAL every event but `Reset` leaves the state as it is, and `Reset` returns to RUN at 0x200. Absorbing
FATAL is the spec's decision D21 (assumption 6). -/
def Obligations.FatalIsLeftOnlyByReset : Prop :=
  ∀ s : State, s.mode = .fatal →
    (∀ e, e ≠ .reset → deliver e s = .next s) ∧ (∃ t, deliver .reset s = .next t ∧ t.mode = .run ∧ t.pc = 0x200)

/-- A step of the model answers a next state unless its event is a `Load`. The model's own conventions carry two of its
parts: that an index-bounds violation is a next state in FATAL and no stop (assumption 6; R179 lets a model treat FATAL as
a fault, R212 says the machine stops there), and that a `Load` is the one event that may stop (assumption 8). That a decode
miss and the two stack errors go on is R90 and R180. -/
def Obligations.OnlyLoadCanStopTheMachine : Prop :=
  ∀ s : State, (∃ t, step s = .next t) ∨ ∃ bytes, s.nextEvent = .load bytes

/-! ## Rules of the whole machine -/

/-- Every step keeps the canonical form of memory, the model's form of it, and the report trace of decode misses only
(assumption 7); the step into FATAL with its free values (assumption 6) is no exception. -/
def Obligations.StepKeepsTheInvariant : Prop := ∀ s t : State, s.Inv → step s = .next t → t.Inv

/-- The reset state has the invariant. -/
def Obligations.ResetHasTheInvariant : Prop := State.reset.Inv

/-- R11: an instruction that is none of the seven flag writers leaves VF unless it names register 15 as its destination,
and a flag writer that does not name it leaves 0 or 1 there. -/
def Obligations.OnlySevenInstructionsWriteVfAsFlag : Prop :=
  ∀ (i : Instr) (s t : State), exec i s = .next t → t.mode ≠ .fatal → ¬ destination i VF →
    (¬ writesFlag i → t.getV VF = s.getV VF) ∧ (writesFlag i → t.getV VF = 0 ∨ t.getV VF = 1)

/-- The writers of R25's table, with R15, R19, R22, R23 and R46: each piece of state is left as it was by every
instruction not listed for it. -/
def Obligations.EachPieceOfStateHasOnlyItsWriters : Prop :=
  ∀ (i : Instr) (s t : State), exec i s = .next t → t.mode ≠ .fatal →
    ((∀ nnn, i ≠ .ldI nnn) → (∀ x, i ≠ .addI x) → (∀ x, i ≠ .ldF x) → t.ireg = s.ireg) ∧
    ((∀ nnn, i ≠ .call nnn) → t.stack = s.stack ∧ (i ≠ .ret → t.sp = s.sp)) ∧
    ((∀ x, i ≠ .ldDtVx x) → t.dt = s.dt) ∧ ((∀ x, i ≠ .ldStVx x) → t.st = s.st) ∧
    (i ≠ .cls → (∀ x y n, i ≠ .drw x y n) → t.fb = s.fb) ∧
    ((∀ x, i ≠ .ldVxK x) → t.mode = s.mode ∧ t.waitReg = s.waitReg) ∧
    (∀ r, ¬ destination i r → (r = VF → ¬ writesFlag i) → t.getV r = s.getV r) ∧
    (s.mem.wf (unlisted s.font) = true → ∀ a, ¬ stores i s a → t.byteAt a = s.byteAt a) ∧
    t.keys = s.keys ∧ t.font = s.font ∧ t.reports = s.reports ∧ t.events = s.events

/-- The property R45 derives: from an even pc and even stack entries an instruction whose target is even leaves both
even. -/
def Obligations.EvenTargetsKeepPcEven : Prop :=
  ∀ (i : Instr) (s t : State), exec i s = .next t → t.mode ≠ .fatal → evenPc s → targetEven i s → evenPc t

/-- R19, R159: nothing depends on ST. Two machines that differ only in ST, with the same events and the same answers of
the random source to come, take every step alike and still differ only in ST; of a step into FATAL only the mode is
compared, for nothing else is defined there (R179, assumption 6). That ST has no consumer is the spec's decision D31
(assumption 24). -/
def Obligations.NothingDependsOnTheSoundTimer : Prop :=
  ∀ (s : State) (b : Byte),
    (∀ t, step s = .next t → ∃ t', step { s with st := b } = .next t' ∧ t'.mode = t.mode ∧
      (t.mode ≠ .fatal → ∃ b', t' = { t with st := b' })) ∧
    (∀ f, step s = .fault f → step { s with st := b } = .fault f) ∧
    (∀ r, step s = .refused r → step { s with st := b } = .refused r)

/-- R80's table, with R91: a skip advances pc by one word or two, the key wait holds it, and every instruction but the
jumps, call, return, skips and key wait advances it by exactly one word. -/
def Obligations.PcAdvancesByOneWordUnlessListed : Prop :=
  ∀ (i : Instr) (s t : State), exec i s = .next t → t.mode ≠ .fatal → ¬ redirects i →
    (isSkip i → t.pc = s.pc + 2 ∨ t.pc = s.pc + 4) ∧ ((∃ x, i = .ldVxK x) → t.pc = s.pc) ∧
    (¬ isSkip i → (∀ x, i ≠ .ldVxK x) → t.pc = s.pc + 2)
end

