-- ==== Sys2Proof/Laws/Decode.lean ====
section
/-! SUPPORT. The laws of the encoding: the fields of a packed word are the operands, and a packed word under its
format's mask keeps only its fixed digits (spec/30_encoding.md R61, R62). -/

namespace Sys2Proof

/-! ## Slices of concatenations -/

theorem slice_digit2 (a b c d : BitVec 4) : (a ++ b ++ c ++ d).extractLsb' 8 4 = b := by
  apply BitVec.eq_of_getLsbD_eq
  intro i hi
  simp only [BitVec.getLsbD_extractLsb', BitVec.getLsbD_append]
  interval_cases i <;> simp

theorem slice_digit1 (a b c d : BitVec 4) : (a ++ b ++ c ++ d).extractLsb' 4 4 = c := by
  apply BitVec.eq_of_getLsbD_eq
  intro i hi
  simp only [BitVec.getLsbD_extractLsb', BitVec.getLsbD_append]
  interval_cases i <;> simp

theorem slice_digit0 (a b c d : BitVec 4) : (a ++ b ++ c ++ d).extractLsb' 0 4 = d := by
  apply BitVec.eq_of_getLsbD_eq
  intro i hi
  simp only [BitVec.getLsbD_extractLsb', BitVec.getLsbD_append]
  interval_cases i <;> simp

theorem slice_digit2_of_byte (a b : BitVec 4) (k : BitVec 8) : (a ++ b ++ k).extractLsb' 8 4 = b := by
  apply BitVec.eq_of_getLsbD_eq
  intro i hi
  simp only [BitVec.getLsbD_extractLsb', BitVec.getLsbD_append]
  interval_cases i <;> simp

theorem slice_byte (a b : BitVec 4) (k : BitVec 8) : (a ++ b ++ k).extractLsb' 0 8 = k := by
  apply BitVec.eq_of_getLsbD_eq
  intro i hi
  simp only [BitVec.getLsbD_extractLsb', BitVec.getLsbD_append]
  interval_cases i <;> simp

theorem slice_addr (a : BitVec 4) (n : BitVec 12) : (a ++ n).extractLsb' 0 12 = n := by
  apply BitVec.eq_of_getLsbD_eq
  intro i hi
  simp only [BitVec.getLsbD_extractLsb', BitVec.getLsbD_append]
  interval_cases i <;> simp

/-! ## Words under a mask -/

theorem mask_outer_digits (a b c d : BitVec 4) : (a ++ b ++ c ++ d) &&& 0xF00F#16 = (a ++ 0#4 ++ 0#4 ++ d : BitVec (4 + 4 + 4 + 4)) := by
  apply BitVec.eq_of_getLsbD_eq
  intro i hi
  simp only [BitVec.getLsbD_and, BitVec.getLsbD_append]
  interval_cases i <;> simp

theorem mask_top_digit4 (a b c d : BitVec 4) : (a ++ b ++ c ++ d) &&& 0xF000#16 = (a ++ 0#12 : BitVec (4 + 12)) := by
  apply BitVec.eq_of_getLsbD_eq
  intro i hi
  simp only [BitVec.getLsbD_and, BitVec.getLsbD_append]
  interval_cases i <;> simp

theorem mask_top_digit3 (a b : BitVec 4) (k : BitVec 8) : (a ++ b ++ k) &&& 0xF000#16 = (a ++ 0#12 : BitVec (4 + 12)) := by
  apply BitVec.eq_of_getLsbD_eq
  intro i hi
  simp only [BitVec.getLsbD_and, BitVec.getLsbD_append]
  interval_cases i <;> simp

theorem mask_top_digit2 (a : BitVec 4) (n : BitVec 12) : (a ++ n) &&& 0xF000#16 = (a ++ 0#12 : BitVec (4 + 12)) := by
  apply BitVec.eq_of_getLsbD_eq
  intro i hi
  simp only [BitVec.getLsbD_and, BitVec.getLsbD_append]
  interval_cases i <;> simp

theorem mask_digit_and_byte (a b : BitVec 4) (k : BitVec 8) : (a ++ b ++ k) &&& 0xF0FF#16 = (a ++ 0#4 ++ k : BitVec (4 + 4 + 8)) := by
  apply BitVec.eq_of_getLsbD_eq
  intro i hi
  simp only [BitVec.getLsbD_and, BitVec.getLsbD_append]
  interval_cases i <;> simp

/-! ## Fields of packed words -/

@[simp] theorem fieldX_packXYN (op : BitVec 4) (x y n : Fin 16) : fieldX (packXYN op x y n) = x :=
  congrArg BitVec.toFin (slice_digit2 op (nibble x) (nibble y) (nibble n))

@[simp] theorem fieldY_packXYN (op : BitVec 4) (x y n : Fin 16) : fieldY (packXYN op x y n) = y :=
  congrArg BitVec.toFin (slice_digit1 op (nibble x) (nibble y) (nibble n))

@[simp] theorem fieldN_packXYN (op : BitVec 4) (x y n : Fin 16) : fieldN (packXYN op x y n) = n :=
  congrArg BitVec.toFin (slice_digit0 op (nibble x) (nibble y) (nibble n))

@[simp] theorem fieldX_packXK (op : BitVec 4) (x : Reg) (kk : Byte) : fieldX (packXK op x kk) = x :=
  congrArg BitVec.toFin (slice_digit2_of_byte op (nibble x) kk)

@[simp] theorem fieldKK_packXK (op : BitVec 4) (x : Reg) (kk : Byte) : fieldKK (packXK op x kk) = kk :=
  slice_byte op (nibble x) kk

@[simp] theorem fieldNNN_packA (op : BitVec 4) (nnn : BitVec 12) : fieldNNN (packA op nnn) = nnn :=
  slice_addr op nnn

/-! ## Packed words under their format's mask -/

theorem packA_mask (op : BitVec 4) (nnn : BitVec 12) : packA op nnn &&& 0xF000 = packA op 0 :=
  mask_top_digit2 op nnn

theorem packXK_mask (op : BitVec 4) (x : Reg) (kk : Byte) : packXK op x kk &&& 0xF000 = packA op 0 :=
  mask_top_digit3 op (nibble x) kk

theorem packXYN_mask (op : BitVec 4) (x y n : Fin 16) : packXYN op x y n &&& 0xF000 = packA op 0 :=
  mask_top_digit4 op (nibble x) (nibble y) (nibble n)

theorem packXYN_mask_last (op : BitVec 4) (x y n : Fin 16) : packXYN op x y n &&& 0xF00F = packXYN op 0 0 n :=
  mask_outer_digits op (nibble x) (nibble y) (nibble n)

theorem packXK_mask_byte (op : BitVec 4) (x : Reg) (kk : Byte) : packXK op x kk &&& 0xF0FF = packXK op 0 kk :=
  mask_digit_and_byte op (nibble x) kk

/-! ## Packed words as numbers -/

theorem nat_append (a b k n : Nat) (hb : b < 2 ^ k) (hn : 2 ^ k = n) : a <<< k ||| b = n * a + b := by
  rw [← Nat.shiftLeft_add_eq_or_of_lt hb, Nat.shiftLeft_eq, hn, Nat.mul_comm]

theorem packA_toNat (op : BitVec 4) (nnn : BitVec 12) : (packA op nnn).toNat = 0x1000 * op.toNat + nnn.toNat := by
  have h : (packA op nnn).toNat = op.toNat <<< 12 ||| nnn.toNat := BitVec.toNat_append op nnn
  rw [h, nat_append _ _ 12 0x1000 nnn.isLt (by decide)]

theorem packXK_toNat (op : BitVec 4) (x : Reg) (kk : Byte) :
    (packXK op x kk).toNat = 0x1000 * op.toNat + 0x100 * x.val + kk.toNat := by
  have h : (packXK op x kk).toNat = (op.toNat <<< 4 ||| x.val) <<< 8 ||| kk.toNat := by
    rw [packXK, BitVec.toNat_append, BitVec.toNat_append]; rfl
  rw [h, nat_append _ _ 8 0x100 kk.isLt (by decide), nat_append _ _ 4 0x10 x.isLt (by decide)]
  omega

theorem packXYN_toNat (op : BitVec 4) (x y n : Fin 16) :
    (packXYN op x y n).toNat = 0x1000 * op.toNat + 0x100 * x.val + 0x10 * y.val + n.val := by
  have h : (packXYN op x y n).toNat = ((op.toNat <<< 4 ||| x.val) <<< 4 ||| y.val) <<< 4 ||| n.val := by
    rw [packXYN, BitVec.toNat_append, BitVec.toNat_append, BitVec.toNat_append]; rfl
  rw [h, nat_append _ _ 4 0x10 n.isLt (by decide), nat_append _ _ 4 0x10 y.isLt (by decide),
    nat_append _ _ 4 0x10 x.isLt (by decide)]
  omega

/-! ## Every word in each format, and what a row asks of its digits -/

theorem exists_packA (w : Word) : ∃ op nnn, w = packA op nnn := by
  refine ⟨BitVec.ofNat 4 (w.toNat / 4096), BitVec.ofNat 12 (w.toNat % 4096), BitVec.eq_of_toNat_eq ?_⟩
  rw [packA_toNat]
  simp only [BitVec.toNat_ofNat]
  have := w.isLt
  omega

theorem exists_packXK (w : Word) : ∃ op x kk, w = packXK op x kk := by
  refine ⟨BitVec.ofNat 4 (w.toNat / 4096), ⟨w.toNat / 256 % 16, by omega⟩, BitVec.ofNat 8 (w.toNat % 256),
    BitVec.eq_of_toNat_eq ?_⟩
  rw [packXK_toNat]
  simp only [BitVec.toNat_ofNat]
  have := w.isLt
  omega

theorem exists_packXYN (w : Word) : ∃ op x y n, w = packXYN op x y n := by
  refine ⟨BitVec.ofNat 4 (w.toNat / 4096), ⟨w.toNat / 256 % 16, by omega⟩, ⟨w.toNat / 16 % 16, by omega⟩,
    ⟨w.toNat % 16, by omega⟩, BitVec.eq_of_toNat_eq ?_⟩
  rw [packXYN_toNat]
  simp only [BitVec.toNat_ofNat]
  have := w.isLt
  omega

theorem rowZ_hits (p : Word) (i : Instr) (w : Word) : (rowZ p i).hits w = true ↔ w = p := by
  have h : w &&& 0xFFFF = w := BitVec.and_allOnes
  simp only [Row.hits, rowZ, beq_iff_eq]
  rw [h]

theorem rowA_hits (p : Word) (f : BitVec 12 → Instr) (w : Word) (hp : p.toNat % 4096 = 0) :
    (rowA p f).hits w = true ↔ w.toNat / 4096 = p.toNat / 4096 := by
  obtain ⟨op, nnn, rfl⟩ := exists_packA w
  simp only [Row.hits, rowA, beq_iff_eq]
  rw [packA_mask, ← BitVec.toNat_inj, packA_toNat, packA_toNat]
  have := nnn.isLt
  have h0 : (0 : BitVec 12).toNat = 0 := rfl
  rw [h0]
  omega

theorem rowXK_hits (p : Word) (f : Reg → Byte → Instr) (w : Word) (hp : p.toNat % 4096 = 0) :
    (rowXK p f).hits w = true ↔ w.toNat / 4096 = p.toNat / 4096 :=
  rowA_hits p (fun _ => .cls) w hp

theorem rowXYN_hits (p : Word) (f : Reg → Reg → Fin 16 → Instr) (w : Word) (hp : p.toNat % 4096 = 0) :
    (rowXYN p f).hits w = true ↔ w.toNat / 4096 = p.toNat / 4096 :=
  rowA_hits p (fun _ => .cls) w hp

theorem rowXY_hits (p : Word) (f : Reg → Reg → Instr) (w : Word) (hp : p.toNat % 4096 < 16) :
    (rowXY p f).hits w = true ↔ w.toNat / 4096 = p.toNat / 4096 ∧ w.toNat % 16 = p.toNat % 16 := by
  obtain ⟨op, x, y, n, rfl⟩ := exists_packXYN w
  simp only [Row.hits, rowXY, beq_iff_eq]
  rw [packXYN_mask_last, ← BitVec.toNat_inj, packXYN_toNat, packXYN_toNat]
  have h0 : (0 : Fin 16).val = 0 := rfl
  rw [h0]
  omega

theorem rowXF_hits (p : Word) (f : Reg → Instr) (w : Word) (hp : p.toNat % 4096 < 256) :
    (rowXF p f).hits w = true ↔ w.toNat / 4096 = p.toNat / 4096 ∧ w.toNat % 256 = p.toNat % 256 := by
  obtain ⟨op, x, kk, rfl⟩ := exists_packXK w
  simp only [Row.hits, rowXF, beq_iff_eq]
  rw [packXK_mask_byte, ← BitVec.toNat_inj, packXK_toNat, packXK_toNat]
  have := kk.isLt
  have h0 : (0 : Fin 16).val = 0 := rfl
  rw [h0]
  omega

/-! ## Bytes and words -/

@[simp] theorem wordOfBytes_bytesOfWord (w : Word) :
    wordOfBytes (w.extractLsb' 8 8) (w.extractLsb' 0 8) = w := by
  unfold wordOfBytes
  apply BitVec.eq_of_getLsbD_eq
  intro i hi
  simp only [BitVec.getLsbD_append, BitVec.getLsbD_extractLsb']
  interval_cases i <;> simp

/-- Decoding two bytes is `Resolve` of their word (R65). -/
theorem decode_two (first second : Byte) (rest : List Byte) :
    decode (first :: second :: rest) =
      match resolve (wordOfBytes first second) with
      | some i => .ok (i, rest)
      | none => .error (.decodeMiss (wordOfBytes first second)) := rfl

end Sys2Proof
end

