-- ==== Sys2Proof/Laws/State.lean ====
section
/-! SUPPORT. One lemma per field per update of State, so that no proof unfolds a record update; and the laws of the
register, key and stack accessors. -/

namespace Sys2Proof.Machine

/-! ### setV -/

@[simp] theorem State.setV_v (s : State) (r : Reg) (b : Byte) : (s.setV r b).v = s.v.set r.val b r.isLt := rfl
@[simp] theorem State.setV_pc (s : State) (r : Reg) (b : Byte) : (s.setV r b).pc = s.pc := rfl
@[simp] theorem State.setV_ireg (s : State) (r : Reg) (b : Byte) : (s.setV r b).ireg = s.ireg := rfl
@[simp] theorem State.setV_sp (s : State) (r : Reg) (b : Byte) : (s.setV r b).sp = s.sp := rfl
@[simp] theorem State.setV_stack (s : State) (r : Reg) (b : Byte) : (s.setV r b).stack = s.stack := rfl
@[simp] theorem State.setV_dt (s : State) (r : Reg) (b : Byte) : (s.setV r b).dt = s.dt := rfl
@[simp] theorem State.setV_st (s : State) (r : Reg) (b : Byte) : (s.setV r b).st = s.st := rfl
@[simp] theorem State.setV_keys (s : State) (r : Reg) (b : Byte) : (s.setV r b).keys = s.keys := rfl
@[simp] theorem State.setV_fb (s : State) (r : Reg) (b : Byte) : (s.setV r b).fb = s.fb := rfl
@[simp] theorem State.setV_mem (s : State) (r : Reg) (b : Byte) : (s.setV r b).mem = s.mem := rfl
@[simp] theorem State.setV_mode (s : State) (r : Reg) (b : Byte) : (s.setV r b).mode = s.mode := rfl
@[simp] theorem State.setV_waitReg (s : State) (r : Reg) (b : Byte) : (s.setV r b).waitReg = s.waitReg := rfl
@[simp] theorem State.setV_font (s : State) (r : Reg) (b : Byte) : (s.setV r b).font = s.font := rfl
@[simp] theorem State.setV_events (s : State) (r : Reg) (b : Byte) : (s.setV r b).events = s.events := rfl
@[simp] theorem State.setV_rnd (s : State) (r : Reg) (b : Byte) : (s.setV r b).rnd = s.rnd := rfl
@[simp] theorem State.setV_free (s : State) (r : Reg) (b : Byte) : (s.setV r b).free = s.free := rfl
@[simp] theorem State.setV_reports (s : State) (r : Reg) (b : Byte) : (s.setV r b).reports = s.reports := rfl
@[simp] theorem State.setV_loadable (s : State) (r : Reg) (b : Byte) : (s.setV r b).loadable = s.loadable := rfl

/-! ### setPc -/

@[simp] theorem State.setPc_v (s : State) (t : Word) : (s.setPc t).v = s.v := rfl
@[simp] theorem State.setPc_pc (s : State) (t : Word) : (s.setPc t).pc = t := rfl
@[simp] theorem State.setPc_ireg (s : State) (t : Word) : (s.setPc t).ireg = s.ireg := rfl
@[simp] theorem State.setPc_sp (s : State) (t : Word) : (s.setPc t).sp = s.sp := rfl
@[simp] theorem State.setPc_stack (s : State) (t : Word) : (s.setPc t).stack = s.stack := rfl
@[simp] theorem State.setPc_dt (s : State) (t : Word) : (s.setPc t).dt = s.dt := rfl
@[simp] theorem State.setPc_st (s : State) (t : Word) : (s.setPc t).st = s.st := rfl
@[simp] theorem State.setPc_keys (s : State) (t : Word) : (s.setPc t).keys = s.keys := rfl
@[simp] theorem State.setPc_fb (s : State) (t : Word) : (s.setPc t).fb = s.fb := rfl
@[simp] theorem State.setPc_mem (s : State) (t : Word) : (s.setPc t).mem = s.mem := rfl
@[simp] theorem State.setPc_mode (s : State) (t : Word) : (s.setPc t).mode = s.mode := rfl
@[simp] theorem State.setPc_waitReg (s : State) (t : Word) : (s.setPc t).waitReg = s.waitReg := rfl
@[simp] theorem State.setPc_font (s : State) (t : Word) : (s.setPc t).font = s.font := rfl
@[simp] theorem State.setPc_events (s : State) (t : Word) : (s.setPc t).events = s.events := rfl
@[simp] theorem State.setPc_rnd (s : State) (t : Word) : (s.setPc t).rnd = s.rnd := rfl
@[simp] theorem State.setPc_free (s : State) (t : Word) : (s.setPc t).free = s.free := rfl
@[simp] theorem State.setPc_reports (s : State) (t : Word) : (s.setPc t).reports = s.reports := rfl
@[simp] theorem State.setPc_loadable (s : State) (t : Word) : (s.setPc t).loadable = s.loadable := rfl

/-! ### advance -/

@[simp] theorem State.advance_v (s : State) : (s.advance).v = s.v := rfl
@[simp] theorem State.advance_pc (s : State) : (s.advance).pc = s.pc + 2 := rfl
@[simp] theorem State.advance_ireg (s : State) : (s.advance).ireg = s.ireg := rfl
@[simp] theorem State.advance_sp (s : State) : (s.advance).sp = s.sp := rfl
@[simp] theorem State.advance_stack (s : State) : (s.advance).stack = s.stack := rfl
@[simp] theorem State.advance_dt (s : State) : (s.advance).dt = s.dt := rfl
@[simp] theorem State.advance_st (s : State) : (s.advance).st = s.st := rfl
@[simp] theorem State.advance_keys (s : State) : (s.advance).keys = s.keys := rfl
@[simp] theorem State.advance_fb (s : State) : (s.advance).fb = s.fb := rfl
@[simp] theorem State.advance_mem (s : State) : (s.advance).mem = s.mem := rfl
@[simp] theorem State.advance_mode (s : State) : (s.advance).mode = s.mode := rfl
@[simp] theorem State.advance_waitReg (s : State) : (s.advance).waitReg = s.waitReg := rfl
@[simp] theorem State.advance_font (s : State) : (s.advance).font = s.font := rfl
@[simp] theorem State.advance_events (s : State) : (s.advance).events = s.events := rfl
@[simp] theorem State.advance_rnd (s : State) : (s.advance).rnd = s.rnd := rfl
@[simp] theorem State.advance_free (s : State) : (s.advance).free = s.free := rfl
@[simp] theorem State.advance_reports (s : State) : (s.advance).reports = s.reports := rfl
@[simp] theorem State.advance_loadable (s : State) : (s.advance).loadable = s.loadable := rfl

/-! ### setI -/

@[simp] theorem State.setI_v (s : State) (w : Word) : (s.setI w).v = s.v := rfl
@[simp] theorem State.setI_pc (s : State) (w : Word) : (s.setI w).pc = s.pc := rfl
@[simp] theorem State.setI_ireg (s : State) (w : Word) : (s.setI w).ireg = w := rfl
@[simp] theorem State.setI_sp (s : State) (w : Word) : (s.setI w).sp = s.sp := rfl
@[simp] theorem State.setI_stack (s : State) (w : Word) : (s.setI w).stack = s.stack := rfl
@[simp] theorem State.setI_dt (s : State) (w : Word) : (s.setI w).dt = s.dt := rfl
@[simp] theorem State.setI_st (s : State) (w : Word) : (s.setI w).st = s.st := rfl
@[simp] theorem State.setI_keys (s : State) (w : Word) : (s.setI w).keys = s.keys := rfl
@[simp] theorem State.setI_fb (s : State) (w : Word) : (s.setI w).fb = s.fb := rfl
@[simp] theorem State.setI_mem (s : State) (w : Word) : (s.setI w).mem = s.mem := rfl
@[simp] theorem State.setI_mode (s : State) (w : Word) : (s.setI w).mode = s.mode := rfl
@[simp] theorem State.setI_waitReg (s : State) (w : Word) : (s.setI w).waitReg = s.waitReg := rfl
@[simp] theorem State.setI_font (s : State) (w : Word) : (s.setI w).font = s.font := rfl
@[simp] theorem State.setI_events (s : State) (w : Word) : (s.setI w).events = s.events := rfl
@[simp] theorem State.setI_rnd (s : State) (w : Word) : (s.setI w).rnd = s.rnd := rfl
@[simp] theorem State.setI_free (s : State) (w : Word) : (s.setI w).free = s.free := rfl
@[simp] theorem State.setI_reports (s : State) (w : Word) : (s.setI w).reports = s.reports := rfl
@[simp] theorem State.setI_loadable (s : State) (w : Word) : (s.setI w).loadable = s.loadable := rfl

/-! ### setDt -/

@[simp] theorem State.setDt_v (s : State) (b : Byte) : (s.setDt b).v = s.v := rfl
@[simp] theorem State.setDt_pc (s : State) (b : Byte) : (s.setDt b).pc = s.pc := rfl
@[simp] theorem State.setDt_ireg (s : State) (b : Byte) : (s.setDt b).ireg = s.ireg := rfl
@[simp] theorem State.setDt_sp (s : State) (b : Byte) : (s.setDt b).sp = s.sp := rfl
@[simp] theorem State.setDt_stack (s : State) (b : Byte) : (s.setDt b).stack = s.stack := rfl
@[simp] theorem State.setDt_dt (s : State) (b : Byte) : (s.setDt b).dt = b := rfl
@[simp] theorem State.setDt_st (s : State) (b : Byte) : (s.setDt b).st = s.st := rfl
@[simp] theorem State.setDt_keys (s : State) (b : Byte) : (s.setDt b).keys = s.keys := rfl
@[simp] theorem State.setDt_fb (s : State) (b : Byte) : (s.setDt b).fb = s.fb := rfl
@[simp] theorem State.setDt_mem (s : State) (b : Byte) : (s.setDt b).mem = s.mem := rfl
@[simp] theorem State.setDt_mode (s : State) (b : Byte) : (s.setDt b).mode = s.mode := rfl
@[simp] theorem State.setDt_waitReg (s : State) (b : Byte) : (s.setDt b).waitReg = s.waitReg := rfl
@[simp] theorem State.setDt_font (s : State) (b : Byte) : (s.setDt b).font = s.font := rfl
@[simp] theorem State.setDt_events (s : State) (b : Byte) : (s.setDt b).events = s.events := rfl
@[simp] theorem State.setDt_rnd (s : State) (b : Byte) : (s.setDt b).rnd = s.rnd := rfl
@[simp] theorem State.setDt_free (s : State) (b : Byte) : (s.setDt b).free = s.free := rfl
@[simp] theorem State.setDt_reports (s : State) (b : Byte) : (s.setDt b).reports = s.reports := rfl
@[simp] theorem State.setDt_loadable (s : State) (b : Byte) : (s.setDt b).loadable = s.loadable := rfl

/-! ### setSt -/

@[simp] theorem State.setSt_v (s : State) (b : Byte) : (s.setSt b).v = s.v := rfl
@[simp] theorem State.setSt_pc (s : State) (b : Byte) : (s.setSt b).pc = s.pc := rfl
@[simp] theorem State.setSt_ireg (s : State) (b : Byte) : (s.setSt b).ireg = s.ireg := rfl
@[simp] theorem State.setSt_sp (s : State) (b : Byte) : (s.setSt b).sp = s.sp := rfl
@[simp] theorem State.setSt_stack (s : State) (b : Byte) : (s.setSt b).stack = s.stack := rfl
@[simp] theorem State.setSt_dt (s : State) (b : Byte) : (s.setSt b).dt = s.dt := rfl
@[simp] theorem State.setSt_st (s : State) (b : Byte) : (s.setSt b).st = b := rfl
@[simp] theorem State.setSt_keys (s : State) (b : Byte) : (s.setSt b).keys = s.keys := rfl
@[simp] theorem State.setSt_fb (s : State) (b : Byte) : (s.setSt b).fb = s.fb := rfl
@[simp] theorem State.setSt_mem (s : State) (b : Byte) : (s.setSt b).mem = s.mem := rfl
@[simp] theorem State.setSt_mode (s : State) (b : Byte) : (s.setSt b).mode = s.mode := rfl
@[simp] theorem State.setSt_waitReg (s : State) (b : Byte) : (s.setSt b).waitReg = s.waitReg := rfl
@[simp] theorem State.setSt_font (s : State) (b : Byte) : (s.setSt b).font = s.font := rfl
@[simp] theorem State.setSt_events (s : State) (b : Byte) : (s.setSt b).events = s.events := rfl
@[simp] theorem State.setSt_rnd (s : State) (b : Byte) : (s.setSt b).rnd = s.rnd := rfl
@[simp] theorem State.setSt_free (s : State) (b : Byte) : (s.setSt b).free = s.free := rfl
@[simp] theorem State.setSt_reports (s : State) (b : Byte) : (s.setSt b).reports = s.reports := rfl
@[simp] theorem State.setSt_loadable (s : State) (b : Byte) : (s.setSt b).loadable = s.loadable := rfl

/-! ### setKey -/

@[simp] theorem State.setKey_v (s : State) (k : Key) (b : Bool) : (s.setKey k b).v = s.v := rfl
@[simp] theorem State.setKey_pc (s : State) (k : Key) (b : Bool) : (s.setKey k b).pc = s.pc := rfl
@[simp] theorem State.setKey_ireg (s : State) (k : Key) (b : Bool) : (s.setKey k b).ireg = s.ireg := rfl
@[simp] theorem State.setKey_sp (s : State) (k : Key) (b : Bool) : (s.setKey k b).sp = s.sp := rfl
@[simp] theorem State.setKey_stack (s : State) (k : Key) (b : Bool) : (s.setKey k b).stack = s.stack := rfl
@[simp] theorem State.setKey_dt (s : State) (k : Key) (b : Bool) : (s.setKey k b).dt = s.dt := rfl
@[simp] theorem State.setKey_st (s : State) (k : Key) (b : Bool) : (s.setKey k b).st = s.st := rfl
@[simp] theorem State.setKey_keys (s : State) (k : Key) (b : Bool) : (s.setKey k b).keys = s.keys.set k.val b k.isLt := rfl
@[simp] theorem State.setKey_fb (s : State) (k : Key) (b : Bool) : (s.setKey k b).fb = s.fb := rfl
@[simp] theorem State.setKey_mem (s : State) (k : Key) (b : Bool) : (s.setKey k b).mem = s.mem := rfl
@[simp] theorem State.setKey_mode (s : State) (k : Key) (b : Bool) : (s.setKey k b).mode = s.mode := rfl
@[simp] theorem State.setKey_waitReg (s : State) (k : Key) (b : Bool) : (s.setKey k b).waitReg = s.waitReg := rfl
@[simp] theorem State.setKey_font (s : State) (k : Key) (b : Bool) : (s.setKey k b).font = s.font := rfl
@[simp] theorem State.setKey_events (s : State) (k : Key) (b : Bool) : (s.setKey k b).events = s.events := rfl
@[simp] theorem State.setKey_rnd (s : State) (k : Key) (b : Bool) : (s.setKey k b).rnd = s.rnd := rfl
@[simp] theorem State.setKey_free (s : State) (k : Key) (b : Bool) : (s.setKey k b).free = s.free := rfl
@[simp] theorem State.setKey_reports (s : State) (k : Key) (b : Bool) : (s.setKey k b).reports = s.reports := rfl
@[simp] theorem State.setKey_loadable (s : State) (k : Key) (b : Bool) : (s.setKey k b).loadable = s.loadable := rfl

/-! ### setMode -/

@[simp] theorem State.setMode_v (s : State) (m : Mode) : (s.setMode m).v = s.v := rfl
@[simp] theorem State.setMode_pc (s : State) (m : Mode) : (s.setMode m).pc = s.pc := rfl
@[simp] theorem State.setMode_ireg (s : State) (m : Mode) : (s.setMode m).ireg = s.ireg := rfl
@[simp] theorem State.setMode_sp (s : State) (m : Mode) : (s.setMode m).sp = s.sp := rfl
@[simp] theorem State.setMode_stack (s : State) (m : Mode) : (s.setMode m).stack = s.stack := rfl
@[simp] theorem State.setMode_dt (s : State) (m : Mode) : (s.setMode m).dt = s.dt := rfl
@[simp] theorem State.setMode_st (s : State) (m : Mode) : (s.setMode m).st = s.st := rfl
@[simp] theorem State.setMode_keys (s : State) (m : Mode) : (s.setMode m).keys = s.keys := rfl
@[simp] theorem State.setMode_fb (s : State) (m : Mode) : (s.setMode m).fb = s.fb := rfl
@[simp] theorem State.setMode_mem (s : State) (m : Mode) : (s.setMode m).mem = s.mem := rfl
@[simp] theorem State.setMode_mode (s : State) (m : Mode) : (s.setMode m).mode = m := rfl
@[simp] theorem State.setMode_waitReg (s : State) (m : Mode) : (s.setMode m).waitReg = s.waitReg := rfl
@[simp] theorem State.setMode_font (s : State) (m : Mode) : (s.setMode m).font = s.font := rfl
@[simp] theorem State.setMode_events (s : State) (m : Mode) : (s.setMode m).events = s.events := rfl
@[simp] theorem State.setMode_rnd (s : State) (m : Mode) : (s.setMode m).rnd = s.rnd := rfl
@[simp] theorem State.setMode_free (s : State) (m : Mode) : (s.setMode m).free = s.free := rfl
@[simp] theorem State.setMode_reports (s : State) (m : Mode) : (s.setMode m).reports = s.reports := rfl
@[simp] theorem State.setMode_loadable (s : State) (m : Mode) : (s.setMode m).loadable = s.loadable := rfl

/-! ### setWaitReg -/

@[simp] theorem State.setWaitReg_v (s : State) (x : Reg) : (s.setWaitReg x).v = s.v := rfl
@[simp] theorem State.setWaitReg_pc (s : State) (x : Reg) : (s.setWaitReg x).pc = s.pc := rfl
@[simp] theorem State.setWaitReg_ireg (s : State) (x : Reg) : (s.setWaitReg x).ireg = s.ireg := rfl
@[simp] theorem State.setWaitReg_sp (s : State) (x : Reg) : (s.setWaitReg x).sp = s.sp := rfl
@[simp] theorem State.setWaitReg_stack (s : State) (x : Reg) : (s.setWaitReg x).stack = s.stack := rfl
@[simp] theorem State.setWaitReg_dt (s : State) (x : Reg) : (s.setWaitReg x).dt = s.dt := rfl
@[simp] theorem State.setWaitReg_st (s : State) (x : Reg) : (s.setWaitReg x).st = s.st := rfl
@[simp] theorem State.setWaitReg_keys (s : State) (x : Reg) : (s.setWaitReg x).keys = s.keys := rfl
@[simp] theorem State.setWaitReg_fb (s : State) (x : Reg) : (s.setWaitReg x).fb = s.fb := rfl
@[simp] theorem State.setWaitReg_mem (s : State) (x : Reg) : (s.setWaitReg x).mem = s.mem := rfl
@[simp] theorem State.setWaitReg_mode (s : State) (x : Reg) : (s.setWaitReg x).mode = s.mode := rfl
@[simp] theorem State.setWaitReg_waitReg (s : State) (x : Reg) : (s.setWaitReg x).waitReg = x := rfl
@[simp] theorem State.setWaitReg_font (s : State) (x : Reg) : (s.setWaitReg x).font = s.font := rfl
@[simp] theorem State.setWaitReg_events (s : State) (x : Reg) : (s.setWaitReg x).events = s.events := rfl
@[simp] theorem State.setWaitReg_rnd (s : State) (x : Reg) : (s.setWaitReg x).rnd = s.rnd := rfl
@[simp] theorem State.setWaitReg_free (s : State) (x : Reg) : (s.setWaitReg x).free = s.free := rfl
@[simp] theorem State.setWaitReg_reports (s : State) (x : Reg) : (s.setWaitReg x).reports = s.reports := rfl
@[simp] theorem State.setWaitReg_loadable (s : State) (x : Reg) : (s.setWaitReg x).loadable = s.loadable := rfl

/-! ### setFb -/

@[simp] theorem State.setFb_v (s : State) (f : Framebuffer) : (s.setFb f).v = s.v := rfl
@[simp] theorem State.setFb_pc (s : State) (f : Framebuffer) : (s.setFb f).pc = s.pc := rfl
@[simp] theorem State.setFb_ireg (s : State) (f : Framebuffer) : (s.setFb f).ireg = s.ireg := rfl
@[simp] theorem State.setFb_sp (s : State) (f : Framebuffer) : (s.setFb f).sp = s.sp := rfl
@[simp] theorem State.setFb_stack (s : State) (f : Framebuffer) : (s.setFb f).stack = s.stack := rfl
@[simp] theorem State.setFb_dt (s : State) (f : Framebuffer) : (s.setFb f).dt = s.dt := rfl
@[simp] theorem State.setFb_st (s : State) (f : Framebuffer) : (s.setFb f).st = s.st := rfl
@[simp] theorem State.setFb_keys (s : State) (f : Framebuffer) : (s.setFb f).keys = s.keys := rfl
@[simp] theorem State.setFb_fb (s : State) (f : Framebuffer) : (s.setFb f).fb = f := rfl
@[simp] theorem State.setFb_mem (s : State) (f : Framebuffer) : (s.setFb f).mem = s.mem := rfl
@[simp] theorem State.setFb_mode (s : State) (f : Framebuffer) : (s.setFb f).mode = s.mode := rfl
@[simp] theorem State.setFb_waitReg (s : State) (f : Framebuffer) : (s.setFb f).waitReg = s.waitReg := rfl
@[simp] theorem State.setFb_font (s : State) (f : Framebuffer) : (s.setFb f).font = s.font := rfl
@[simp] theorem State.setFb_events (s : State) (f : Framebuffer) : (s.setFb f).events = s.events := rfl
@[simp] theorem State.setFb_rnd (s : State) (f : Framebuffer) : (s.setFb f).rnd = s.rnd := rfl
@[simp] theorem State.setFb_free (s : State) (f : Framebuffer) : (s.setFb f).free = s.free := rfl
@[simp] theorem State.setFb_reports (s : State) (f : Framebuffer) : (s.setFb f).reports = s.reports := rfl
@[simp] theorem State.setFb_loadable (s : State) (f : Framebuffer) : (s.setFb f).loadable = s.loadable := rfl

/-! ### report -/

@[simp] theorem State.report_v (s : State) (w : Word) : (s.report w).v = s.v := rfl
@[simp] theorem State.report_pc (s : State) (w : Word) : (s.report w).pc = s.pc := rfl
@[simp] theorem State.report_ireg (s : State) (w : Word) : (s.report w).ireg = s.ireg := rfl
@[simp] theorem State.report_sp (s : State) (w : Word) : (s.report w).sp = s.sp := rfl
@[simp] theorem State.report_stack (s : State) (w : Word) : (s.report w).stack = s.stack := rfl
@[simp] theorem State.report_dt (s : State) (w : Word) : (s.report w).dt = s.dt := rfl
@[simp] theorem State.report_st (s : State) (w : Word) : (s.report w).st = s.st := rfl
@[simp] theorem State.report_keys (s : State) (w : Word) : (s.report w).keys = s.keys := rfl
@[simp] theorem State.report_fb (s : State) (w : Word) : (s.report w).fb = s.fb := rfl
@[simp] theorem State.report_mem (s : State) (w : Word) : (s.report w).mem = s.mem := rfl
@[simp] theorem State.report_mode (s : State) (w : Word) : (s.report w).mode = s.mode := rfl
@[simp] theorem State.report_waitReg (s : State) (w : Word) : (s.report w).waitReg = s.waitReg := rfl
@[simp] theorem State.report_font (s : State) (w : Word) : (s.report w).font = s.font := rfl
@[simp] theorem State.report_events (s : State) (w : Word) : (s.report w).events = s.events := rfl
@[simp] theorem State.report_rnd (s : State) (w : Word) : (s.report w).rnd = s.rnd := rfl
@[simp] theorem State.report_free (s : State) (w : Word) : (s.report w).free = s.free := rfl
@[simp] theorem State.report_reports (s : State) (w : Word) : (s.report w).reports = w :: s.reports := rfl
@[simp] theorem State.report_loadable (s : State) (w : Word) : (s.report w).loadable = s.loadable := rfl

/-! ### poke -/

@[simp] theorem State.poke_v (s : State) (a : Nat) (b : Byte) : (s.poke a b).v = s.v := rfl
@[simp] theorem State.poke_pc (s : State) (a : Nat) (b : Byte) : (s.poke a b).pc = s.pc := rfl
@[simp] theorem State.poke_ireg (s : State) (a : Nat) (b : Byte) : (s.poke a b).ireg = s.ireg := rfl
@[simp] theorem State.poke_sp (s : State) (a : Nat) (b : Byte) : (s.poke a b).sp = s.sp := rfl
@[simp] theorem State.poke_stack (s : State) (a : Nat) (b : Byte) : (s.poke a b).stack = s.stack := rfl
@[simp] theorem State.poke_dt (s : State) (a : Nat) (b : Byte) : (s.poke a b).dt = s.dt := rfl
@[simp] theorem State.poke_st (s : State) (a : Nat) (b : Byte) : (s.poke a b).st = s.st := rfl
@[simp] theorem State.poke_keys (s : State) (a : Nat) (b : Byte) : (s.poke a b).keys = s.keys := rfl
@[simp] theorem State.poke_fb (s : State) (a : Nat) (b : Byte) : (s.poke a b).fb = s.fb := rfl
@[simp] theorem State.poke_mem (s : State) (a : Nat) (b : Byte) : (s.poke a b).mem = s.mem.write (unlisted s.font) a b := rfl
@[simp] theorem State.poke_mode (s : State) (a : Nat) (b : Byte) : (s.poke a b).mode = s.mode := rfl
@[simp] theorem State.poke_waitReg (s : State) (a : Nat) (b : Byte) : (s.poke a b).waitReg = s.waitReg := rfl
@[simp] theorem State.poke_font (s : State) (a : Nat) (b : Byte) : (s.poke a b).font = s.font := rfl
@[simp] theorem State.poke_events (s : State) (a : Nat) (b : Byte) : (s.poke a b).events = s.events := rfl
@[simp] theorem State.poke_rnd (s : State) (a : Nat) (b : Byte) : (s.poke a b).rnd = s.rnd := rfl
@[simp] theorem State.poke_free (s : State) (a : Nat) (b : Byte) : (s.poke a b).free = s.free := rfl
@[simp] theorem State.poke_reports (s : State) (a : Nat) (b : Byte) : (s.poke a b).reports = s.reports := rfl
@[simp] theorem State.poke_loadable (s : State) (a : Nat) (b : Byte) : (s.poke a b).loadable = s.loadable := rfl

/-! ### popFrame -/

@[simp] theorem State.popFrame_v (s : State) : (s.popFrame).v = s.v := rfl
@[simp] theorem State.popFrame_pc (s : State) : (s.popFrame).pc = s.pc := rfl
@[simp] theorem State.popFrame_ireg (s : State) : (s.popFrame).ireg = s.ireg := rfl
@[simp] theorem State.popFrame_sp (s : State) : (s.popFrame).sp = ⟨s.sp.val - 1, by omega⟩ := rfl
@[simp] theorem State.popFrame_stack (s : State) : (s.popFrame).stack = s.stack := rfl
@[simp] theorem State.popFrame_dt (s : State) : (s.popFrame).dt = s.dt := rfl
@[simp] theorem State.popFrame_st (s : State) : (s.popFrame).st = s.st := rfl
@[simp] theorem State.popFrame_keys (s : State) : (s.popFrame).keys = s.keys := rfl
@[simp] theorem State.popFrame_fb (s : State) : (s.popFrame).fb = s.fb := rfl
@[simp] theorem State.popFrame_mem (s : State) : (s.popFrame).mem = s.mem := rfl
@[simp] theorem State.popFrame_mode (s : State) : (s.popFrame).mode = s.mode := rfl
@[simp] theorem State.popFrame_waitReg (s : State) : (s.popFrame).waitReg = s.waitReg := rfl
@[simp] theorem State.popFrame_font (s : State) : (s.popFrame).font = s.font := rfl
@[simp] theorem State.popFrame_events (s : State) : (s.popFrame).events = s.events := rfl
@[simp] theorem State.popFrame_rnd (s : State) : (s.popFrame).rnd = s.rnd := rfl
@[simp] theorem State.popFrame_free (s : State) : (s.popFrame).free = s.free := rfl
@[simp] theorem State.popFrame_reports (s : State) : (s.popFrame).reports = s.reports := rfl
@[simp] theorem State.popFrame_loadable (s : State) : (s.popFrame).loadable = s.loadable := rfl

/-! ### sealBoot -/

@[simp] theorem State.sealBoot_v (s : State) : (s.sealBoot).v = s.v := rfl
@[simp] theorem State.sealBoot_pc (s : State) : (s.sealBoot).pc = s.pc := rfl
@[simp] theorem State.sealBoot_ireg (s : State) : (s.sealBoot).ireg = s.ireg := rfl
@[simp] theorem State.sealBoot_sp (s : State) : (s.sealBoot).sp = s.sp := rfl
@[simp] theorem State.sealBoot_stack (s : State) : (s.sealBoot).stack = s.stack := rfl
@[simp] theorem State.sealBoot_dt (s : State) : (s.sealBoot).dt = s.dt := rfl
@[simp] theorem State.sealBoot_st (s : State) : (s.sealBoot).st = s.st := rfl
@[simp] theorem State.sealBoot_keys (s : State) : (s.sealBoot).keys = s.keys := rfl
@[simp] theorem State.sealBoot_fb (s : State) : (s.sealBoot).fb = s.fb := rfl
@[simp] theorem State.sealBoot_mem (s : State) : (s.sealBoot).mem = s.mem := rfl
@[simp] theorem State.sealBoot_mode (s : State) : (s.sealBoot).mode = s.mode := rfl
@[simp] theorem State.sealBoot_waitReg (s : State) : (s.sealBoot).waitReg = s.waitReg := rfl
@[simp] theorem State.sealBoot_font (s : State) : (s.sealBoot).font = s.font := rfl
@[simp] theorem State.sealBoot_events (s : State) : (s.sealBoot).events = s.events := rfl
@[simp] theorem State.sealBoot_rnd (s : State) : (s.sealBoot).rnd = s.rnd := rfl
@[simp] theorem State.sealBoot_free (s : State) : (s.sealBoot).free = s.free := rfl
@[simp] theorem State.sealBoot_reports (s : State) : (s.sealBoot).reports = s.reports := rfl
@[simp] theorem State.sealBoot_loadable (s : State) : (s.sealBoot).loadable = false := rfl

/-! ### takeEvent -/

@[simp] theorem State.takeEvent_v (s : State) : (s.takeEvent).v = s.v := rfl
@[simp] theorem State.takeEvent_pc (s : State) : (s.takeEvent).pc = s.pc := rfl
@[simp] theorem State.takeEvent_ireg (s : State) : (s.takeEvent).ireg = s.ireg := rfl
@[simp] theorem State.takeEvent_sp (s : State) : (s.takeEvent).sp = s.sp := rfl
@[simp] theorem State.takeEvent_stack (s : State) : (s.takeEvent).stack = s.stack := rfl
@[simp] theorem State.takeEvent_dt (s : State) : (s.takeEvent).dt = s.dt := rfl
@[simp] theorem State.takeEvent_st (s : State) : (s.takeEvent).st = s.st := rfl
@[simp] theorem State.takeEvent_keys (s : State) : (s.takeEvent).keys = s.keys := rfl
@[simp] theorem State.takeEvent_fb (s : State) : (s.takeEvent).fb = s.fb := rfl
@[simp] theorem State.takeEvent_mem (s : State) : (s.takeEvent).mem = s.mem := rfl
@[simp] theorem State.takeEvent_mode (s : State) : (s.takeEvent).mode = s.mode := rfl
@[simp] theorem State.takeEvent_waitReg (s : State) : (s.takeEvent).waitReg = s.waitReg := rfl
@[simp] theorem State.takeEvent_font (s : State) : (s.takeEvent).font = s.font := rfl
@[simp] theorem State.takeEvent_events (s : State) : (s.takeEvent).events = s.events.tail := rfl
@[simp] theorem State.takeEvent_rnd (s : State) : (s.takeEvent).rnd = s.rnd := rfl
@[simp] theorem State.takeEvent_free (s : State) : (s.takeEvent).free = s.free := rfl
@[simp] theorem State.takeEvent_reports (s : State) : (s.takeEvent).reports = s.reports := rfl
@[simp] theorem State.takeEvent_loadable (s : State) : (s.takeEvent).loadable = s.loadable := rfl

/-! ### skipIf -/

@[simp] theorem State.skipIf_v (s : State) (c : Bool) : (s.skipIf c).v = s.v := by
  unfold State.skipIf; split <;> rfl
@[simp] theorem State.skipIf_ireg (s : State) (c : Bool) : (s.skipIf c).ireg = s.ireg := by
  unfold State.skipIf; split <;> rfl
@[simp] theorem State.skipIf_sp (s : State) (c : Bool) : (s.skipIf c).sp = s.sp := by
  unfold State.skipIf; split <;> rfl
@[simp] theorem State.skipIf_stack (s : State) (c : Bool) : (s.skipIf c).stack = s.stack := by
  unfold State.skipIf; split <;> rfl
@[simp] theorem State.skipIf_dt (s : State) (c : Bool) : (s.skipIf c).dt = s.dt := by
  unfold State.skipIf; split <;> rfl
@[simp] theorem State.skipIf_st (s : State) (c : Bool) : (s.skipIf c).st = s.st := by
  unfold State.skipIf; split <;> rfl
@[simp] theorem State.skipIf_keys (s : State) (c : Bool) : (s.skipIf c).keys = s.keys := by
  unfold State.skipIf; split <;> rfl
@[simp] theorem State.skipIf_fb (s : State) (c : Bool) : (s.skipIf c).fb = s.fb := by
  unfold State.skipIf; split <;> rfl
@[simp] theorem State.skipIf_mem (s : State) (c : Bool) : (s.skipIf c).mem = s.mem := by
  unfold State.skipIf; split <;> rfl
@[simp] theorem State.skipIf_mode (s : State) (c : Bool) : (s.skipIf c).mode = s.mode := by
  unfold State.skipIf; split <;> rfl
@[simp] theorem State.skipIf_waitReg (s : State) (c : Bool) : (s.skipIf c).waitReg = s.waitReg := by
  unfold State.skipIf; split <;> rfl
@[simp] theorem State.skipIf_font (s : State) (c : Bool) : (s.skipIf c).font = s.font := by
  unfold State.skipIf; split <;> rfl
@[simp] theorem State.skipIf_events (s : State) (c : Bool) : (s.skipIf c).events = s.events := by
  unfold State.skipIf; split <;> rfl
@[simp] theorem State.skipIf_rnd (s : State) (c : Bool) : (s.skipIf c).rnd = s.rnd := by
  unfold State.skipIf; split <;> rfl
@[simp] theorem State.skipIf_free (s : State) (c : Bool) : (s.skipIf c).free = s.free := by
  unfold State.skipIf; split <;> rfl
@[simp] theorem State.skipIf_reports (s : State) (c : Bool) : (s.skipIf c).reports = s.reports := by
  unfold State.skipIf; split <;> rfl
@[simp] theorem State.skipIf_loadable (s : State) (c : Bool) : (s.skipIf c).loadable = s.loadable := by
  unfold State.skipIf; split <;> rfl

/-! ### pushFrame -/

@[simp] theorem State.pushFrame_v (s : State) (w : Word) : (s.pushFrame w).v = s.v := by
  unfold State.pushFrame; split <;> rfl
@[simp] theorem State.pushFrame_pc (s : State) (w : Word) : (s.pushFrame w).pc = s.pc := by
  unfold State.pushFrame; split <;> rfl
@[simp] theorem State.pushFrame_ireg (s : State) (w : Word) : (s.pushFrame w).ireg = s.ireg := by
  unfold State.pushFrame; split <;> rfl
@[simp] theorem State.pushFrame_dt (s : State) (w : Word) : (s.pushFrame w).dt = s.dt := by
  unfold State.pushFrame; split <;> rfl
@[simp] theorem State.pushFrame_st (s : State) (w : Word) : (s.pushFrame w).st = s.st := by
  unfold State.pushFrame; split <;> rfl
@[simp] theorem State.pushFrame_keys (s : State) (w : Word) : (s.pushFrame w).keys = s.keys := by
  unfold State.pushFrame; split <;> rfl
@[simp] theorem State.pushFrame_fb (s : State) (w : Word) : (s.pushFrame w).fb = s.fb := by
  unfold State.pushFrame; split <;> rfl
@[simp] theorem State.pushFrame_mem (s : State) (w : Word) : (s.pushFrame w).mem = s.mem := by
  unfold State.pushFrame; split <;> rfl
@[simp] theorem State.pushFrame_mode (s : State) (w : Word) : (s.pushFrame w).mode = s.mode := by
  unfold State.pushFrame; split <;> rfl
@[simp] theorem State.pushFrame_waitReg (s : State) (w : Word) : (s.pushFrame w).waitReg = s.waitReg := by
  unfold State.pushFrame; split <;> rfl
@[simp] theorem State.pushFrame_font (s : State) (w : Word) : (s.pushFrame w).font = s.font := by
  unfold State.pushFrame; split <;> rfl
@[simp] theorem State.pushFrame_events (s : State) (w : Word) : (s.pushFrame w).events = s.events := by
  unfold State.pushFrame; split <;> rfl
@[simp] theorem State.pushFrame_rnd (s : State) (w : Word) : (s.pushFrame w).rnd = s.rnd := by
  unfold State.pushFrame; split <;> rfl
@[simp] theorem State.pushFrame_free (s : State) (w : Word) : (s.pushFrame w).free = s.free := by
  unfold State.pushFrame; split <;> rfl
@[simp] theorem State.pushFrame_reports (s : State) (w : Word) : (s.pushFrame w).reports = s.reports := by
  unfold State.pushFrame; split <;> rfl
@[simp] theorem State.pushFrame_loadable (s : State) (w : Word) : (s.pushFrame w).loadable = s.loadable := by
  unfold State.pushFrame; split <;> rfl

/-! ### afterRnd -/

@[simp] theorem State.afterRnd_v (s : State) : (s.afterRnd).v = s.v := by
  unfold State.afterRnd; split <;> rfl
@[simp] theorem State.afterRnd_pc (s : State) : (s.afterRnd).pc = s.pc := by
  unfold State.afterRnd; split <;> rfl
@[simp] theorem State.afterRnd_ireg (s : State) : (s.afterRnd).ireg = s.ireg := by
  unfold State.afterRnd; split <;> rfl
@[simp] theorem State.afterRnd_sp (s : State) : (s.afterRnd).sp = s.sp := by
  unfold State.afterRnd; split <;> rfl
@[simp] theorem State.afterRnd_stack (s : State) : (s.afterRnd).stack = s.stack := by
  unfold State.afterRnd; split <;> rfl
@[simp] theorem State.afterRnd_dt (s : State) : (s.afterRnd).dt = s.dt := by
  unfold State.afterRnd; split <;> rfl
@[simp] theorem State.afterRnd_st (s : State) : (s.afterRnd).st = s.st := by
  unfold State.afterRnd; split <;> rfl
@[simp] theorem State.afterRnd_keys (s : State) : (s.afterRnd).keys = s.keys := by
  unfold State.afterRnd; split <;> rfl
@[simp] theorem State.afterRnd_fb (s : State) : (s.afterRnd).fb = s.fb := by
  unfold State.afterRnd; split <;> rfl
@[simp] theorem State.afterRnd_mem (s : State) : (s.afterRnd).mem = s.mem := by
  unfold State.afterRnd; split <;> rfl
@[simp] theorem State.afterRnd_mode (s : State) : (s.afterRnd).mode = s.mode := by
  unfold State.afterRnd; split <;> rfl
@[simp] theorem State.afterRnd_waitReg (s : State) : (s.afterRnd).waitReg = s.waitReg := by
  unfold State.afterRnd; split <;> rfl
@[simp] theorem State.afterRnd_font (s : State) : (s.afterRnd).font = s.font := by
  unfold State.afterRnd; split <;> rfl
@[simp] theorem State.afterRnd_events (s : State) : (s.afterRnd).events = s.events := by
  unfold State.afterRnd; split <;> rfl
@[simp] theorem State.afterRnd_reports (s : State) : (s.afterRnd).reports = s.reports := by
  unfold State.afterRnd; split <;> rfl
@[simp] theorem State.afterRnd_loadable (s : State) : (s.afterRnd).loadable = s.loadable := by
  unfold State.afterRnd; split <;> rfl

/-! ### setVFrom -/

@[simp] theorem State.setVFrom_pc (s : State) (k : Nat) (bs : List Byte) : (s.setVFrom k bs).pc = s.pc := by
  induction bs generalizing s k with
  | nil => rfl
  | cons b bs ih => simp [State.setVFrom, ih]
@[simp] theorem State.setVFrom_ireg (s : State) (k : Nat) (bs : List Byte) : (s.setVFrom k bs).ireg = s.ireg := by
  induction bs generalizing s k with
  | nil => rfl
  | cons b bs ih => simp [State.setVFrom, ih]
@[simp] theorem State.setVFrom_sp (s : State) (k : Nat) (bs : List Byte) : (s.setVFrom k bs).sp = s.sp := by
  induction bs generalizing s k with
  | nil => rfl
  | cons b bs ih => simp [State.setVFrom, ih]
@[simp] theorem State.setVFrom_stack (s : State) (k : Nat) (bs : List Byte) : (s.setVFrom k bs).stack = s.stack := by
  induction bs generalizing s k with
  | nil => rfl
  | cons b bs ih => simp [State.setVFrom, ih]
@[simp] theorem State.setVFrom_dt (s : State) (k : Nat) (bs : List Byte) : (s.setVFrom k bs).dt = s.dt := by
  induction bs generalizing s k with
  | nil => rfl
  | cons b bs ih => simp [State.setVFrom, ih]
@[simp] theorem State.setVFrom_st (s : State) (k : Nat) (bs : List Byte) : (s.setVFrom k bs).st = s.st := by
  induction bs generalizing s k with
  | nil => rfl
  | cons b bs ih => simp [State.setVFrom, ih]
@[simp] theorem State.setVFrom_keys (s : State) (k : Nat) (bs : List Byte) : (s.setVFrom k bs).keys = s.keys := by
  induction bs generalizing s k with
  | nil => rfl
  | cons b bs ih => simp [State.setVFrom, ih]
@[simp] theorem State.setVFrom_fb (s : State) (k : Nat) (bs : List Byte) : (s.setVFrom k bs).fb = s.fb := by
  induction bs generalizing s k with
  | nil => rfl
  | cons b bs ih => simp [State.setVFrom, ih]
@[simp] theorem State.setVFrom_mem (s : State) (k : Nat) (bs : List Byte) : (s.setVFrom k bs).mem = s.mem := by
  induction bs generalizing s k with
  | nil => rfl
  | cons b bs ih => simp [State.setVFrom, ih]
@[simp] theorem State.setVFrom_mode (s : State) (k : Nat) (bs : List Byte) : (s.setVFrom k bs).mode = s.mode := by
  induction bs generalizing s k with
  | nil => rfl
  | cons b bs ih => simp [State.setVFrom, ih]
@[simp] theorem State.setVFrom_waitReg (s : State) (k : Nat) (bs : List Byte) : (s.setVFrom k bs).waitReg = s.waitReg := by
  induction bs generalizing s k with
  | nil => rfl
  | cons b bs ih => simp [State.setVFrom, ih]
@[simp] theorem State.setVFrom_font (s : State) (k : Nat) (bs : List Byte) : (s.setVFrom k bs).font = s.font := by
  induction bs generalizing s k with
  | nil => rfl
  | cons b bs ih => simp [State.setVFrom, ih]
@[simp] theorem State.setVFrom_events (s : State) (k : Nat) (bs : List Byte) : (s.setVFrom k bs).events = s.events := by
  induction bs generalizing s k with
  | nil => rfl
  | cons b bs ih => simp [State.setVFrom, ih]
@[simp] theorem State.setVFrom_rnd (s : State) (k : Nat) (bs : List Byte) : (s.setVFrom k bs).rnd = s.rnd := by
  induction bs generalizing s k with
  | nil => rfl
  | cons b bs ih => simp [State.setVFrom, ih]
@[simp] theorem State.setVFrom_free (s : State) (k : Nat) (bs : List Byte) : (s.setVFrom k bs).free = s.free := by
  induction bs generalizing s k with
  | nil => rfl
  | cons b bs ih => simp [State.setVFrom, ih]
@[simp] theorem State.setVFrom_reports (s : State) (k : Nat) (bs : List Byte) : (s.setVFrom k bs).reports = s.reports := by
  induction bs generalizing s k with
  | nil => rfl
  | cons b bs ih => simp [State.setVFrom, ih]
@[simp] theorem State.setVFrom_loadable (s : State) (k : Nat) (bs : List Byte) : (s.setVFrom k bs).loadable = s.loadable := by
  induction bs generalizing s k with
  | nil => rfl
  | cons b bs ih => simp [State.setVFrom, ih]

/-! ### raiseIndexBounds -/

@[simp] theorem State.raiseIndexBounds_mode (s : State) : s.raiseIndexBounds.mode = .fatal := rfl
@[simp] theorem State.raiseIndexBounds_font (s : State) : s.raiseIndexBounds.font = s.font := rfl
@[simp] theorem State.raiseIndexBounds_events (s : State) : s.raiseIndexBounds.events = s.events := rfl
@[simp] theorem State.raiseIndexBounds_rnd (s : State) : s.raiseIndexBounds.rnd = s.rnd := rfl
@[simp] theorem State.raiseIndexBounds_free (s : State) : s.raiseIndexBounds.free = s.free + 1 := rfl
@[simp] theorem State.raiseIndexBounds_reports (s : State) : s.raiseIndexBounds.reports = s.reports := rfl
@[simp] theorem State.raiseIndexBounds_loadable (s : State) : s.raiseIndexBounds.loadable = s.loadable := rfl

/-! ### Reading a register or a byte after an update that writes neither -/

@[simp] theorem State.byteAt_setV (s : State) (r : Reg) (b : Byte) (j : Nat) : (s.setV r b).byteAt j = s.byteAt j := rfl
@[simp] theorem State.getV_setPc (s : State) (t : Word) (i : Reg) : (s.setPc t).getV i = s.getV i := rfl
@[simp] theorem State.byteAt_setPc (s : State) (t : Word) (j : Nat) : (s.setPc t).byteAt j = s.byteAt j := rfl
@[simp] theorem State.getV_advance (s : State) (i : Reg) : (s.advance).getV i = s.getV i := rfl
@[simp] theorem State.byteAt_advance (s : State) (j : Nat) : (s.advance).byteAt j = s.byteAt j := rfl
@[simp] theorem State.getV_setI (s : State) (w : Word) (i : Reg) : (s.setI w).getV i = s.getV i := rfl
@[simp] theorem State.byteAt_setI (s : State) (w : Word) (j : Nat) : (s.setI w).byteAt j = s.byteAt j := rfl
@[simp] theorem State.getV_setDt (s : State) (b : Byte) (i : Reg) : (s.setDt b).getV i = s.getV i := rfl
@[simp] theorem State.byteAt_setDt (s : State) (b : Byte) (j : Nat) : (s.setDt b).byteAt j = s.byteAt j := rfl
@[simp] theorem State.getV_setSt (s : State) (b : Byte) (i : Reg) : (s.setSt b).getV i = s.getV i := rfl
@[simp] theorem State.byteAt_setSt (s : State) (b : Byte) (j : Nat) : (s.setSt b).byteAt j = s.byteAt j := rfl
@[simp] theorem State.getV_setKey (s : State) (k : Key) (b : Bool) (i : Reg) : (s.setKey k b).getV i = s.getV i := rfl
@[simp] theorem State.byteAt_setKey (s : State) (k : Key) (b : Bool) (j : Nat) : (s.setKey k b).byteAt j = s.byteAt j := rfl
@[simp] theorem State.getV_setMode (s : State) (m : Mode) (i : Reg) : (s.setMode m).getV i = s.getV i := rfl
@[simp] theorem State.byteAt_setMode (s : State) (m : Mode) (j : Nat) : (s.setMode m).byteAt j = s.byteAt j := rfl
@[simp] theorem State.getV_setWaitReg (s : State) (x : Reg) (i : Reg) : (s.setWaitReg x).getV i = s.getV i := rfl
@[simp] theorem State.byteAt_setWaitReg (s : State) (x : Reg) (j : Nat) : (s.setWaitReg x).byteAt j = s.byteAt j := rfl
@[simp] theorem State.getV_setFb (s : State) (f : Framebuffer) (i : Reg) : (s.setFb f).getV i = s.getV i := rfl
@[simp] theorem State.byteAt_setFb (s : State) (f : Framebuffer) (j : Nat) : (s.setFb f).byteAt j = s.byteAt j := rfl
@[simp] theorem State.getV_report (s : State) (w : Word) (i : Reg) : (s.report w).getV i = s.getV i := rfl
@[simp] theorem State.byteAt_report (s : State) (w : Word) (j : Nat) : (s.report w).byteAt j = s.byteAt j := rfl
@[simp] theorem State.getV_poke (s : State) (a : Nat) (b : Byte) (i : Reg) : (s.poke a b).getV i = s.getV i := rfl
@[simp] theorem State.getV_popFrame (s : State) (i : Reg) : (s.popFrame).getV i = s.getV i := rfl
@[simp] theorem State.byteAt_popFrame (s : State) (j : Nat) : (s.popFrame).byteAt j = s.byteAt j := rfl
@[simp] theorem State.getV_sealBoot (s : State) (i : Reg) : (s.sealBoot).getV i = s.getV i := rfl
@[simp] theorem State.byteAt_sealBoot (s : State) (j : Nat) : (s.sealBoot).byteAt j = s.byteAt j := rfl
@[simp] theorem State.getV_takeEvent (s : State) (i : Reg) : (s.takeEvent).getV i = s.getV i := rfl
@[simp] theorem State.byteAt_takeEvent (s : State) (j : Nat) : (s.takeEvent).byteAt j = s.byteAt j := rfl
@[simp] theorem State.getV_skipIf (s : State) (c : Bool) (i : Reg) : (s.skipIf c).getV i = s.getV i := by
  unfold State.skipIf; split <;> rfl
@[simp] theorem State.byteAt_skipIf (s : State) (c : Bool) (j : Nat) : (s.skipIf c).byteAt j = s.byteAt j := by
  unfold State.skipIf; split <;> rfl
@[simp] theorem State.getV_pushFrame (s : State) (w : Word) (i : Reg) : (s.pushFrame w).getV i = s.getV i := by
  unfold State.pushFrame; split <;> rfl
@[simp] theorem State.byteAt_pushFrame (s : State) (w : Word) (j : Nat) : (s.pushFrame w).byteAt j = s.byteAt j := by
  unfold State.pushFrame; split <;> rfl
@[simp] theorem State.getV_afterRnd (s : State) (i : Reg) : (s.afterRnd).getV i = s.getV i := by
  unfold State.afterRnd; split <;> rfl
@[simp] theorem State.byteAt_afterRnd (s : State) (j : Nat) : (s.afterRnd).byteAt j = s.byteAt j := by
  unfold State.afterRnd; split <;> rfl
@[simp] theorem State.byteAt_setVFrom (s : State) (k : Nat) (bs : List Byte) (j : Nat) : (s.setVFrom k bs).byteAt j = s.byteAt j := by
  simp [State.byteAt]

/-! ### Accessors over updates -/

theorem State.getV_setV (s : State) (x r : Reg) (b : Byte) :
    (s.setV x b).getV r = if r = x then b else s.getV r := by
  simp only [State.getV, State.setV, Fin.getElem_fin, Vector.getElem_set]
  by_cases h : r = x
  · simp [h]
  · simp [h, Fin.val_inj, Ne.symm h]

@[simp] theorem State.getV_setV_self (s : State) (x : Reg) (b : Byte) : (s.setV x b).getV x = b := by
  simp [State.getV_setV]

theorem State.getV_setV_of_ne (s : State) (x r : Reg) (b : Byte) (h : r ≠ x) : (s.setV x b).getV r = s.getV r := by
  simp [State.getV_setV, h]

/-- A register reads the same in two states with the same register file. -/
theorem State.getV_congr (s t : State) (r : Reg) (h : t.v = s.v) : t.getV r = s.getV r := by
  simp [State.getV, h]

theorem State.keyDown_setKey (s : State) (k j : Key) (b : Bool) :
    (s.setKey k b).keyDown j = if j = k then b else s.keyDown j := by
  simp only [State.keyDown, State.setKey, Fin.getElem_fin, Vector.getElem_set]
  by_cases h : j = k
  · simp [h]
  · simp [h, Fin.val_inj, Ne.symm h]

/-- A flag-writing ALU instruction: V[X] holds the result, VF the flag unless X is 15 (R100). -/
theorem State.getV_flagThenResult (s : State) (x r : Reg) (flag result : Byte) :
    (s.flagThenResult x flag result).getV r = if r = x then result else if r = VF then flag else s.getV r := by
  have h : (s.flagThenResult x flag result).getV r = ((s.setV VF flag).setV x result).getV r := rfl
  rw [h, State.getV_setV, State.getV_setV]

/-- Nothing but V and pc is written by a flag-writing ALU instruction. -/
theorem State.flagThenResult_frame (s : State) (x : Reg) (flag result : Byte) :
    s.flagThenResult x flag result =
      { s with v := (s.flagThenResult x flag result).v, pc := s.pc + 2 } := rfl

@[simp] theorem State.skipIf_pc (s : State) (c : Bool) : (s.skipIf c).pc = if c then s.pc + 4 else s.pc + 2 := by
  cases c <;> rfl

/-- `V[k] <- bs[0], V[k+1] <- …`: register r takes its byte when it lies in the range (R130). -/
theorem State.getV_setVFrom (s : State) (k : Nat) (bs : List Byte) (r : Reg) :
    (s.setVFrom k bs).getV r = if k ≤ r.val then (bs[r.val - k]?).getD (s.getV r) else s.getV r := by
  induction bs generalizing s k with
  | nil => simp [State.setVFrom]
  | cons b bs ih =>
    rw [State.setVFrom, ih]
    have hset : ∀ h : r.val < 16, State.getV { s with v := s.v.setIfInBounds k b } r =
        if k = r.val then b else s.getV r := by
      intro h
      simp [State.getV, Vector.getElem_setIfInBounds]
    rw [hset r.isLt]
    by_cases h1 : k = r.val
    · subst h1; simp
    · by_cases h2 : k ≤ r.val
      · have h3 : k + 1 ≤ r.val := by omega
        have h4 : r.val - k = (r.val - (k + 1)) + 1 := by omega
        simp [h1, h2, h3, h4]
      · have h3 : ¬ k + 1 ≤ r.val := by omega
        simp [h1, h2, h3]

/-- V0 to VX as a list: entry j is V[j] (R128). -/
theorem State.getElem?_regsUpTo (s : State) (x : Reg) (j : Nat) :
    (s.regsUpTo x)[j]? = if h : j ≤ x.val then some (s.getV ⟨j, by omega⟩) else none := by
  unfold State.regsUpTo State.getV
  by_cases h : j ≤ x.val
  · have h1 : j < x.val + 1 := by omega
    simp [h, h1]
  · have h1 : ¬ j < x.val + 1 := by omega
    simp [h, h1]

@[simp] theorem State.length_regsUpTo (s : State) (x : Reg) : (s.regsUpTo x).length = x.val + 1 := by
  simp [State.regsUpTo]

@[simp] theorem length_bcdDigits (b : Byte) : (bcdDigits b).length = 3 := rfl

end Sys2Proof.Machine
end

