-- ==== Sys2Proof/Laws/Memory.lean ====
section
/-! SUPPORT. The laws of memory: read over write, the canonical form is kept, and what the byte-sequence reads and
writes do (spec/20_memory.md R42 to R44). -/

namespace Sys2Proof.Machine

/-! ## Read over write -/

theorem Memory.read_of_wfFrom_lt (bg : Nat → Byte) (lo : Nat) (m : Memory) (a : Nat)
    (h : Memory.wfFrom bg lo m = true) (ha : a < lo) : m.read bg a = bg a := by
  induction m generalizing lo with
  | nil => rfl
  | cons c m ih =>
    simp only [Memory.wfFrom, Bool.and_eq_true, decide_eq_true_eq] at h
    have hne : a ≠ c.1 := by omega
    simp only [Memory.read, hne, if_false]
    exact ih (c.1 + 1) h.2 (by omega)

/-- A read after a write to a canonical memory: the value at the address, everything else as before. -/
theorem Memory.read_write_from (bg : Nat → Byte) (lo : Nat) (m : Memory) (a a' : Nat) (b : Byte)
    (h : Memory.wfFrom bg lo m = true) :
    (m.write bg a b).read bg a' = if a' = a then b else m.read bg a' := by
  induction m generalizing lo with
  | nil =>
    by_cases hb : b = bg a <;> by_cases ha : a' = a <;> simp [Memory.write, Memory.read, hb, ha]
  | cons c m ih =>
    obtain ⟨k, d⟩ := c
    simp only [Memory.wfFrom, Bool.and_eq_true, decide_eq_true_eq] at h
    have htail := h.2
    by_cases h1 : a < k
    · by_cases hb : b = bg a
      · simp only [Memory.write, h1, if_true, hb]
        by_cases ha : a' = a
        · subst ha
          have hne : a' ≠ k := by omega
          simp only [Memory.read, hne, if_false, if_true]
          exact Memory.read_of_wfFrom_lt bg (k + 1) m a' htail (by omega)
        · simp [ha]
      · simp only [Memory.write, h1, if_true, hb, if_false, Memory.read]
    · by_cases h2 : a = k
      · subst h2
        by_cases hb : b = bg a
        · simp only [Memory.write, Nat.lt_irrefl, if_false, if_true, hb, Memory.read]
          by_cases ha : a' = a
          · subst ha
            simp only [if_true]
            exact Memory.read_of_wfFrom_lt bg (a' + 1) m a' htail (by omega)
          · simp [ha]
        · simp only [Memory.write, Nat.lt_irrefl, if_false, if_true, hb, Memory.read]
          by_cases ha : a' = a <;> simp [ha]
      · simp only [Memory.write, h1, h2, if_false, Memory.read, ih (k + 1) htail]
        by_cases ha : a' = k
        · have : a' ≠ a := fun e => h2 (e.symm.trans ha)
          simp [ha, Ne.symm h2]
        · simp [ha]

theorem Memory.read_write (bg : Nat → Byte) (m : Memory) (a a' : Nat) (b : Byte) (h : m.wf bg = true) :
    (m.write bg a b).read bg a' = if a' = a then b else m.read bg a' :=
  Memory.read_write_from bg 0 m a a' b h

/-! ## The canonical form -/

theorem Memory.wfFrom_write (bg : Nat → Byte) (lo : Nat) (m : Memory) (a : Nat) (b : Byte)
    (h : Memory.wfFrom bg lo m = true) (hlo : lo ≤ a) (ha : a < Config.memSize) :
    Memory.wfFrom bg lo (m.write bg a b) = true := by
  induction m generalizing lo with
  | nil =>
    by_cases hb : b = bg a
    · simp [Memory.write, hb, Memory.wfFrom]
    · simp [Memory.write, hb, Memory.wfFrom, hlo, ha]
  | cons c m ih =>
    obtain ⟨k, d⟩ := c
    simp only [Memory.wfFrom, Bool.and_eq_true, decide_eq_true_eq] at h
    obtain ⟨⟨⟨h1, h2⟩, h3⟩, h4⟩ := h
    have weaken : ∀ p q, q ≤ p → Memory.wfFrom bg p m = true → Memory.wfFrom bg q m = true := by
      intro p q hpq hp
      cases m with
      | nil => rfl
      | cons c' m' =>
        simp only [Memory.wfFrom, Bool.and_eq_true, decide_eq_true_eq] at hp ⊢
        exact ⟨⟨⟨by omega, hp.1.1.2⟩, hp.1.2⟩, hp.2⟩
    by_cases hlt : a < k
    · by_cases hb : b = bg a
      · simp only [Memory.write, hlt, if_true, hb, Memory.wfFrom, Bool.and_eq_true, decide_eq_true_eq]
        exact ⟨⟨⟨h1, h2⟩, h3⟩, h4⟩
      · simp only [Memory.write, hlt, if_true, hb, if_false, Memory.wfFrom, Bool.and_eq_true, decide_eq_true_eq]
        exact ⟨⟨⟨hlo, ha⟩, hb⟩, ⟨⟨by omega, h2⟩, h3⟩, h4⟩
    · by_cases heq : a = k
      · subst heq
        by_cases hb : b = bg a
        · simp only [Memory.write, Nat.lt_irrefl, if_false, if_true, hb]
          exact weaken (a + 1) lo (by omega) h4
        · simp only [Memory.write, Nat.lt_irrefl, if_false, if_true, hb, Memory.wfFrom, Bool.and_eq_true,
            decide_eq_true_eq]
          exact ⟨⟨⟨hlo, ha⟩, hb⟩, h4⟩
      · simp only [Memory.write, hlt, heq, if_false, Memory.wfFrom, Bool.and_eq_true, decide_eq_true_eq]
        exact ⟨⟨⟨h1, h2⟩, h3⟩, ih (k + 1) h4 (by omega)⟩

/-- A write to an address of the memory keeps the canonical form. -/
theorem Memory.wf_write (bg : Nat → Byte) (m : Memory) (a : Nat) (b : Byte)
    (h : m.wf bg = true) (ha : a < Config.memSize) : (m.write bg a b).wf bg = true :=
  Memory.wfFrom_write bg 0 m a b h (Nat.zero_le a) ha

theorem Memory.wfFrom_tabulate (bg f : Nat → Byte) (lo a n : Nat) (hlo : lo ≤ a) (hn : a + n ≤ Config.memSize) :
    Memory.wfFrom bg lo (Memory.tabulate bg f a n) = true := by
  induction n generalizing lo a with
  | zero => rfl
  | succ n ih =>
    by_cases h : f a = bg a
    · simp only [Memory.tabulate, h, if_true]
      exact ih lo (a + 1) (by omega) (by omega)
    · simp only [Memory.tabulate, h, if_false, Memory.wfFrom, Bool.and_eq_true, decide_eq_true_eq]
      exact ⟨⟨⟨hlo, by omega⟩, h⟩, ih (a + 1) (a + 1) (Nat.le_refl _) (by omega)⟩

/-- The memory of free values that a violation leaves is in canonical form. -/
theorem Memory.wf_tabulate (bg f : Nat → Byte) : (Memory.tabulate bg f 0 Config.memSize).wf bg = true :=
  Memory.wfFrom_tabulate bg f 0 0 Config.memSize (Nat.le_refl 0) (by decide)

@[simp] theorem Memory.wf_nil (bg : Nat → Byte) : Memory.wf bg [] = true := rfl

/-! ## Bytes of a state -/

/-- A byte reads the same in two states with the same memory and FONT. -/
theorem State.byteAt_congr (s t : State) (a : Nat) (hm : t.mem = s.mem) (hf : t.font = s.font) :
    t.byteAt a = s.byteAt a := by
  simp [State.byteAt, hm, hf]

theorem State.byteAt_poke (s : State) (a a' : Nat) (b : Byte) (h : s.mem.wf (unlisted s.font) = true) :
    (s.poke a b).byteAt a' = if a' = a then b else s.byteAt a' :=
  Memory.read_write (unlisted s.font) s.mem a a' b h

theorem State.memRead_eq_some (s : State) (a : Nat) (b : Byte) :
    s.memRead a = some b ↔ a < Config.memSize ∧ s.byteAt a = b := by
  simp [State.memRead]

/-! ## Sequences of reads and writes -/

/-- `n` reads from `a` succeed exactly when there are none or all lie in memory, and give the cells in order (R44). -/
theorem State.readBytes_eq (s : State) (a n : Nat) :
    s.readBytes a n =
      if n = 0 ∨ a + n ≤ Config.memSize then some ((List.range n).map fun j => s.byteAt (a + j)) else none := by
  induction n generalizing a with
  | zero => simp [State.readBytes]
  | succ n ih =>
    by_cases h : a + (n + 1) ≤ Config.memSize
    · have h1 : a < Config.memSize := by omega
      have h2 : n = 0 ∨ a + 1 + n ≤ Config.memSize := by omega
      simp only [State.readBytes, State.memRead, h1, if_true, ih, h2, h, or_true]
      rw [List.range_succ_eq_map]
      simp only [List.map_cons, List.map_map, Nat.add_zero, Option.some.injEq, List.cons.injEq, true_and]
      apply List.map_congr_left
      intro j _
      simp only [Function.comp, Nat.succ_eq_add_one]
      congr 1
      omega
    · by_cases h1 : a < Config.memSize
      · have h2 : ¬ (n = 0 ∨ a + 1 + n ≤ Config.memSize) := by omega
        have h3 : ¬ (n + 1 = 0 ∨ a + (n + 1) ≤ Config.memSize) := by omega
        simp only [State.readBytes, State.memRead, h1, if_true, ih, h2, h3, if_false]
      · have h3 : ¬ (n + 1 = 0 ∨ a + (n + 1) ≤ Config.memSize) := by omega
        simp only [State.readBytes, State.memRead, h1, if_false, h3]

/-- A sequence of writes fails exactly when it is not empty and passes the end of memory (R44). -/
theorem State.writeBytes_eq_none (s : State) (a : Nat) (bs : List Byte) :
    s.writeBytes a bs = none ↔ bs ≠ [] ∧ Config.memSize < a + bs.length := by
  induction bs generalizing s a with
  | nil => simp [State.writeBytes]
  | cons b bs ih =>
    by_cases h : a < Config.memSize
    · simp only [State.writeBytes, State.memWrite, h, if_true, ih, List.length_cons]
      cases bs with
      | nil => simp; omega
      | cons c cs => simp; omega
    · simp only [State.writeBytes, State.memWrite, h, if_false, List.length_cons]
      simp; omega

/-- What a completed sequence of writes leaves: only memory changes, its canonical form is kept, the stored bytes are
at `a` upward and every other byte is as before. -/
theorem State.writeBytes_some (s t : State) (a : Nat) (bs : List Byte) (h : s.writeBytes a bs = some t)
    (hw : s.mem.wf (unlisted s.font) = true) :
    t = { s with mem := t.mem } ∧ t.mem.wf (unlisted s.font) = true ∧
      ∀ a', t.byteAt a' = if a ≤ a' then (bs[a' - a]?).getD (s.byteAt a') else s.byteAt a' := by
  induction bs generalizing s a with
  | nil =>
    simp only [State.writeBytes, Option.some.injEq] at h
    subst h
    simp [hw]
  | cons b bs ih =>
    by_cases hb : a < Config.memSize
    · simp only [State.writeBytes, State.memWrite, hb, if_true] at h
      have hw' : (s.poke a b).mem.wf (unlisted (s.poke a b).font) = true := Memory.wf_write _ _ _ _ hw hb
      obtain ⟨h1, h2, h3⟩ := ih (s.poke a b) (a + 1) h hw'
      refine ⟨?_, h2, ?_⟩
      · rw [h1]; rfl
      · intro a'
        rw [h3 a', State.byteAt_poke s a a' b hw]
        by_cases e1 : a' = a
        · subst e1
          have : ¬ a' + 1 ≤ a' := by omega
          simp [this]
        · by_cases e2 : a ≤ a'
          · have e3 : a + 1 ≤ a' := by omega
            have e4 : a' - a = (a' - (a + 1)) + 1 := by omega
            simp [e1, e2, e3, e4]
          · have e3 : ¬ a + 1 ≤ a' := by omega
            simp [e1, e2, e3]
    · simp [State.writeBytes, State.memWrite, hb] at h

/-- Completed writes change memory only, whatever form memory is in. -/
theorem State.writeBytes_frame (s t : State) (a : Nat) (bs : List Byte) (h : s.writeBytes a bs = some t) :
    t = { s with mem := t.mem } := by
  induction bs generalizing s a with
  | nil =>
    simp only [State.writeBytes, Option.some.injEq] at h
    rw [h]
  | cons b bs ih =>
    by_cases hb : a < Config.memSize
    · simp only [State.writeBytes, State.memWrite, hb, if_true] at h
      exact ih (s.poke a b) (a + 1) h
    · simp [State.writeBytes, State.memWrite, hb] at h

/-- Completed writes keep the canonical form. -/
theorem State.writeBytes_wf (s t : State) (a : Nat) (bs : List Byte) (h : s.writeBytes a bs = some t)
    (hw : s.mem.wf (unlisted s.font) = true) : t.mem.wf (unlisted t.font) = true := by
  rw [congrArg State.font (s.writeBytes_frame t a bs h)]
  exact (s.writeBytes_some t a bs h hw).2.1

end Sys2Proof.Machine
end

