-- ==== Sys2Proof/Laws/Display.lean ====
section
/-! SUPPORT. The laws of the framebuffer and of the blitter: which pixels a blit flips and when it collides
(spec/43_framebuffer.md R142, R144). -/

namespace Sys2Proof.Machine

/-! ## Pixels -/

@[simp] theorem Framebuffer.pixel_blank (x : Fin 64) (y : Fin 32) : Framebuffer.blank.pixel x y = false := by
  simp [Framebuffer.pixel, Framebuffer.blank]

/-- A flip turns its own pixel over and leaves every other. -/
theorem Framebuffer.pixel_flip (f : Framebuffer) (x x' : Fin 64) (y y' : Fin 32) :
    (f.flip x y).pixel x' y' = (f.pixel x' y' ^^ (decide (x' = x) && decide (y' = y))) := by
  unfold Framebuffer.pixel Framebuffer.flip
  by_cases hy : y' = y
  · subst hy
    have h2 : (x' < x) ↔ x'.val < x.val := Iff.rfl
    have h3 : (x' = x) ↔ x'.val = x.val := Fin.ext_iff
    have h1 : (!decide (x' < x) && decide (x'.val - x.val = 0)) = decide (x' = x) := by
      rw [Bool.eq_iff_iff]
      simp only [Bool.and_eq_true, Bool.not_eq_true', decide_eq_false_iff_not, decide_eq_true_eq, h2, h3]
      omega
    simp [h1]
  · have hv : ¬ y.val = y'.val := fun e => hy (Fin.ext e.symm)
    simp [hy, hv]

/-- A pixel reads the same in two states with the same framebuffer. -/
theorem State.pixel_congr (s t : State) (x : Fin 64) (y : Fin 32) (h : t.fb = s.fb) : t.pixel x y = s.pixel x y := by
  simp [State.pixel, h]

/-! ## Which pixels a sprite covers -/

/-- A 1-bit among the bits `js` of a sprite row lands on column `x`. -/
def bitsHit (ox : Nat) (b : Byte) (x : Fin 64) (js : List Nat) : Bool :=
  js.any fun j => b.getMsbD j && decide (column ox j = x)

/-- A 1-bit of the sprite rows from row `r` on lands on pixel (x, y). -/
def rowsHit (ox oy : Nat) (x : Fin 64) (y : Fin 32) : Nat → List Byte → Bool
  | _, [] => false
  | r, b :: bs => (decide (rowOf oy r = y) && bitsHit ox b x (List.range 8)) || rowsHit ox oy x y (r + 1) bs

theorem bitsHit_eq_true (ox : Nat) (b : Byte) (x : Fin 64) (js : List Nat) :
    bitsHit ox b x js = true ↔ ∃ j ∈ js, b.getMsbD j = true ∧ column ox j = x := by
  simp [bitsHit]

theorem rowsHit_eq_true (ox oy : Nat) (x : Fin 64) (y : Fin 32) (r : Nat) (bs : List Byte) :
    rowsHit ox oy x y r bs = true ↔
      ∃ k, ∃ b, bs[k]? = some b ∧ rowOf oy (r + k) = y ∧ ∃ j < 8, b.getMsbD j = true ∧ column ox j = x := by
  induction bs generalizing r with
  | nil => simp [rowsHit]
  | cons c bs ih =>
    simp only [rowsHit, Bool.or_eq_true, Bool.and_eq_true, decide_eq_true_eq, bitsHit_eq_true, List.mem_range, ih]
    constructor
    · rintro (⟨h1, h2⟩ | ⟨k, b, h1, h2, h3⟩)
      · exact ⟨0, c, rfl, h1, h2⟩
      · exact ⟨k + 1, b, by simpa using h1, by rw [← h2]; congr 1; omega, h3⟩
    · rintro ⟨k, b, h1, h2, h3⟩
      cases k with
      | zero =>
        simp only [List.getElem?_cons_zero, Option.some.injEq] at h1
        subst h1
        exact .inl ⟨h2, h3⟩
      | succ k => exact .inr ⟨k, b, by simpa using h1, by rw [← h2]; congr 1; omega, h3⟩

/-- Columns of one sprite row are distinct (R144). -/
theorem column_inj (ox j j' : Nat) (hj : j < 8) (hj' : j' < 8) (h : column ox j = column ox j') : j = j' := by
  have h' := congrArg Fin.val h
  simp only [column, Fin.val_ofNat] at h'
  omega

/-- Rows of one sprite are distinct (R144). -/
theorem rowOf_inj (oy r r' : Nat) (hr : r < 32) (hr' : r' < 32) (h : rowOf oy r = rowOf oy r') : r = r' := by
  have h' := congrArg Fin.val h
  simp only [rowOf, Fin.val_ofNat] at h'
  omega

/-! ## The blit -/

/-- The bits `js` of one row: each covered pixel of row `y` is flipped, nothing else, and there is a collision exactly
when a covered pixel was on. -/
theorem foldl_blitBit (ox : Nat) (y : Fin 32) (b : Byte) (js : List Nat) (hlt : ∀ j ∈ js, j < 8) (hnd : js.Nodup)
    (acc : Framebuffer × Bool) :
    (∀ x' y', (js.foldl (blitBit ox y b) acc).1.pixel x' y' =
      (acc.1.pixel x' y' ^^ (decide (y' = y) && bitsHit ox b x' js))) ∧
    ((js.foldl (blitBit ox y b) acc).2 = true ↔
      acc.2 = true ∨ ∃ x', bitsHit ox b x' js = true ∧ acc.1.pixel x' y = true) := by
  induction js generalizing acc with
  | nil => simp [bitsHit]
  | cons j js ih =>
    have hj : j < 8 := hlt j (by simp)
    have hlt' : ∀ i ∈ js, i < 8 := fun i hi => hlt i (by simp [hi])
    obtain ⟨hnotin, hnd'⟩ := List.nodup_cons.mp hnd
    obtain ⟨ih1, ih2⟩ := ih hlt' hnd' (blitBit ox y b acc j)
    have hfresh : bitsHit ox b (column ox j) js = false := by
      rw [Bool.eq_false_iff, Ne, bitsHit_eq_true]
      rintro ⟨i, hi, -, hc⟩
      have := column_inj ox i j (hlt' i hi) hj hc
      exact hnotin (this ▸ hi)
    have hcons : ∀ x', bitsHit ox b x' (j :: js) = ((b.getMsbD j && decide (column ox j = x')) || bitsHit ox b x' js) :=
      fun x' => by simp [bitsHit]
    simp only [List.foldl_cons]
    by_cases hb : b.getMsbD j = true
    · have hacc : blitBit ox y b acc j = (acc.1.flip (column ox j) y, acc.2 || acc.1.pixel (column ox j) y) := by
        simp [blitBit, hb]
      refine ⟨fun x' y' => ?_, ?_⟩
      · rw [ih1, hacc, Framebuffer.pixel_flip, hcons, hb]
        by_cases hx : x' = column ox j
        · subst hx
          rw [hfresh]
          simp
        · have hx' : ¬ column ox j = x' := fun e => hx e.symm
          simp [hx, hx']
      · rw [ih2, hacc]
        constructor
        · rintro (h | ⟨x', h1, h2⟩)
          · rcases Bool.or_eq_true _ _ ▸ h with h | h
            · exact .inl h
            · exact .inr ⟨column ox j, by simp [hcons, hb], h⟩
          · refine .inr ⟨x', by simp [hcons, h1], ?_⟩
            rw [Framebuffer.pixel_flip] at h2
            have hx : x' ≠ column ox j := fun e => by simp [e, hfresh] at h1
            simpa [hx] using h2
        · rintro (h | ⟨x', h1, h2⟩)
          · exact .inl (by simp [h])
          · by_cases hx : x' = column ox j
            · exact .inl (by simp [← hx, h2])
            · refine .inr ⟨x', ?_, ?_⟩
              · have hx' : ¬ column ox j = x' := fun e => hx e.symm
                simpa [hcons, hx'] using h1
              · simpa [Framebuffer.pixel_flip, hx] using h2
    · have hacc : blitBit ox y b acc j = acc := by simp [blitBit, hb]
      have hb' : b.getMsbD j = false := by simpa using hb
      rw [hacc] at ih1 ih2
      rw [hacc]
      refine ⟨fun x' y' => ?_, ?_⟩
      · rw [ih1, hcons, hb']; simp
      · rw [ih2]; simp [hcons, hb']

/-- One sprite row (R142). -/
theorem blitRow_spec (ox : Nat) (y : Fin 32) (b : Byte) (acc : Framebuffer × Bool) :
    (∀ x' y', (blitRow ox y b acc).1.pixel x' y' =
      (acc.1.pixel x' y' ^^ (decide (y' = y) && bitsHit ox b x' (List.range 8)))) ∧
    ((blitRow ox y b acc).2 = true ↔
      acc.2 = true ∨ ∃ x', bitsHit ox b x' (List.range 8) = true ∧ acc.1.pixel x' y = true) :=
  foldl_blitBit ox y b (List.range 8) (fun _ h => List.mem_range.mp h) List.nodup_range acc

/-- The rows from row `r` on, at most 32 of them (R142). -/
theorem blitRows_spec (ox oy r : Nat) (bs : List Byte) (hr : r + bs.length ≤ 32) (acc : Framebuffer × Bool) :
    (∀ x y, (blitRows ox oy r bs acc).1.pixel x y = (acc.1.pixel x y ^^ rowsHit ox oy x y r bs)) ∧
    ((blitRows ox oy r bs acc).2 = true ↔
      acc.2 = true ∨ ∃ x y, rowsHit ox oy x y r bs = true ∧ acc.1.pixel x y = true) := by
  induction bs generalizing r acc with
  | nil => simp [blitRows, rowsHit]
  | cons b bs ih =>
    simp only [List.length_cons] at hr
    obtain ⟨p1, p2⟩ := blitRow_spec ox (rowOf oy r) b acc
    obtain ⟨ih1, ih2⟩ := ih (r + 1) (by omega) (blitRow ox (rowOf oy r) b acc)
    have hfresh : ∀ x, rowsHit ox oy x (rowOf oy r) (r + 1) bs = false := by
      intro x
      rw [Bool.eq_false_iff, Ne, rowsHit_eq_true]
      rintro ⟨k, c, hk, hrow, -⟩
      have hlt : k < bs.length := by
        by_contra hge
        simp [List.getElem?_eq_none (Nat.le_of_not_lt hge)] at hk
      have := rowOf_inj oy (r + 1 + k) r (by omega) (by omega) hrow
      omega
    simp only [blitRows, rowsHit]
    refine ⟨fun x y => ?_, ?_⟩
    · rw [ih1, p1]
      by_cases hy : y = rowOf oy r
      · subst hy
        rw [hfresh]
        simp
      · have hy' : ¬ rowOf oy r = y := fun e => hy e.symm
        simp [hy, hy']
    · rw [ih2, p2]
      constructor
      · rintro ((h | ⟨x, h1, h2⟩) | ⟨x, y, h1, h2⟩)
        · exact .inl h
        · exact .inr ⟨x, rowOf oy r, by simp [h1], h2⟩
        · refine .inr ⟨x, y, by simp [h1], ?_⟩
          have hy : y ≠ rowOf oy r := fun e => by simp [e, hfresh] at h1
          simpa [p1, hy] using h2
      · rintro (h | ⟨x, y, h1, h2⟩)
        · exact .inl (.inl h)
        · by_cases hy : y = rowOf oy r
          · subst hy
            rw [hfresh] at h1
            exact .inl (.inr ⟨x, by simpa using h1, h2⟩)
          · have hy' : ¬ rowOf oy r = y := fun e => hy e.symm
            exact .inr ⟨x, y, by simpa [hy'] using h1, by simpa [p1, hy] using h2⟩

/-- `DrawSprite` (R142): a covered pixel is flipped, every other is left, and the collision flag says whether a covered
pixel was on before. -/
theorem drawSprite_spec (ox oy : Byte) (bs : List Byte) (hb : bs.length ≤ 32) (f : Framebuffer) :
    (∀ x y, (drawSprite ox oy bs f).1.pixel x y = (f.pixel x y ^^ rowsHit ox.toNat oy.toNat x y 0 bs)) ∧
    ((drawSprite ox oy bs f).2 = true ↔
      ∃ x y, rowsHit ox.toNat oy.toNat x y 0 bs = true ∧ f.pixel x y = true) := by
  obtain ⟨h1, h2⟩ := blitRows_spec ox.toNat oy.toNat 0 bs (by omega) (f, false)
  exact ⟨h1, by unfold drawSprite; simpa using h2⟩

end Sys2Proof.Machine
end

