-- ==== Sys2Proof/Laws/PerInstr.lean ====
section
/-! SUPPORT. Laws made per instruction. RowMatch: the encoded word of an instruction matches a row of the table that
builds the instruction back (spec/30_encoding.md R65, R66). -/

namespace Sys2Proof.Laws.RowMatch

/-- Some row of the table matches the word of `i` and builds `i` from it. -/
def Statement (i : Instr) : Prop := ∃ r ∈ instrTable, r.hits (encodeWord i) = true ∧ r.build (encodeWord i) = i

theorem of_row {i : Instr} (r : Row) (hm : r ∈ instrTable) (hh : encodeWord i &&& r.mask = r.pattern)
    (hb : r.build (encodeWord i) = i) : Statement i :=
  ⟨r, hm, by simp [Row.hits, hh], hb⟩

/-- The 35 rows, for membership. -/
theorem mem_table {r : Row} (h : r ∈ rows1 ∨ r ∈ rows10 ∨ r ∈ rows19 ∨ r ∈ rows26) : r ∈ instrTable := by
  simp only [instrTable, List.mem_append]
  tauto

theorem cls : Statement (.cls) :=
  of_row (rowZ 0x00E0 .cls) (mem_table (by simp [rows1]))
    (rfl) (rfl)

theorem ret : Statement (.ret) :=
  of_row (rowZ 0x00EE .ret) (mem_table (by simp [rows1]))
    (rfl) (rfl)

theorem jp (nnn : BitVec 12) : Statement (.jp nnn) :=
  of_row (rowA 0x1000 .jp) (mem_table (by simp [rows1]))
    (packA_mask _ nnn) (congrArg Instr.jp (fieldNNN_packA _ nnn))

theorem call (nnn : BitVec 12) : Statement (.call nnn) :=
  of_row (rowA 0x2000 .call) (mem_table (by simp [rows1]))
    (packA_mask _ nnn) (congrArg Instr.call (fieldNNN_packA _ nnn))

theorem seImm (x : Reg) (kk : Byte) : Statement (.seImm x kk) :=
  of_row (rowXK 0x3000 .seImm) (mem_table (by simp [rows1]))
    (packXK_mask _ x kk) (congrArg₂ Instr.seImm (fieldX_packXK _ x kk) (fieldKK_packXK _ x kk))

theorem sneImm (x : Reg) (kk : Byte) : Statement (.sneImm x kk) :=
  of_row (rowXK 0x4000 .sneImm) (mem_table (by simp [rows1]))
    (packXK_mask _ x kk) (congrArg₂ Instr.sneImm (fieldX_packXK _ x kk) (fieldKK_packXK _ x kk))

theorem seReg (x y : Reg) : Statement (.seReg x y) :=
  of_row (rowXY 0x5000 .seReg) (mem_table (by simp [rows1]))
    (packXYN_mask_last _ x y _) (congrArg₂ Instr.seReg (fieldX_packXYN _ x y _) (fieldY_packXYN _ x y _))

theorem ldImm (x : Reg) (kk : Byte) : Statement (.ldImm x kk) :=
  of_row (rowXK 0x6000 .ldImm) (mem_table (by simp [rows1]))
    (packXK_mask _ x kk) (congrArg₂ Instr.ldImm (fieldX_packXK _ x kk) (fieldKK_packXK _ x kk))

theorem addImm (x : Reg) (kk : Byte) : Statement (.addImm x kk) :=
  of_row (rowXK 0x7000 .addImm) (mem_table (by simp [rows1]))
    (packXK_mask _ x kk) (congrArg₂ Instr.addImm (fieldX_packXK _ x kk) (fieldKK_packXK _ x kk))

theorem ldReg (x y : Reg) : Statement (.ldReg x y) :=
  of_row (rowXY 0x8000 .ldReg) (mem_table (by simp [rows10]))
    (packXYN_mask_last _ x y _) (congrArg₂ Instr.ldReg (fieldX_packXYN _ x y _) (fieldY_packXYN _ x y _))

theorem orReg (x y : Reg) : Statement (.orReg x y) :=
  of_row (rowXY 0x8001 .orReg) (mem_table (by simp [rows10]))
    (packXYN_mask_last _ x y _) (congrArg₂ Instr.orReg (fieldX_packXYN _ x y _) (fieldY_packXYN _ x y _))

theorem andReg (x y : Reg) : Statement (.andReg x y) :=
  of_row (rowXY 0x8002 .andReg) (mem_table (by simp [rows10]))
    (packXYN_mask_last _ x y _) (congrArg₂ Instr.andReg (fieldX_packXYN _ x y _) (fieldY_packXYN _ x y _))

theorem xorReg (x y : Reg) : Statement (.xorReg x y) :=
  of_row (rowXY 0x8003 .xorReg) (mem_table (by simp [rows10]))
    (packXYN_mask_last _ x y _) (congrArg₂ Instr.xorReg (fieldX_packXYN _ x y _) (fieldY_packXYN _ x y _))

theorem addReg (x y : Reg) : Statement (.addReg x y) :=
  of_row (rowXY 0x8004 .addReg) (mem_table (by simp [rows10]))
    (packXYN_mask_last _ x y _) (congrArg₂ Instr.addReg (fieldX_packXYN _ x y _) (fieldY_packXYN _ x y _))

theorem subReg (x y : Reg) : Statement (.subReg x y) :=
  of_row (rowXY 0x8005 .subReg) (mem_table (by simp [rows10]))
    (packXYN_mask_last _ x y _) (congrArg₂ Instr.subReg (fieldX_packXYN _ x y _) (fieldY_packXYN _ x y _))

theorem shr (x y : Reg) : Statement (.shr x y) :=
  of_row (rowXY 0x8006 .shr) (mem_table (by simp [rows10]))
    (packXYN_mask_last _ x y _) (congrArg₂ Instr.shr (fieldX_packXYN _ x y _) (fieldY_packXYN _ x y _))

theorem subn (x y : Reg) : Statement (.subn x y) :=
  of_row (rowXY 0x8007 .subn) (mem_table (by simp [rows10]))
    (packXYN_mask_last _ x y _) (congrArg₂ Instr.subn (fieldX_packXYN _ x y _) (fieldY_packXYN _ x y _))

theorem shl (x y : Reg) : Statement (.shl x y) :=
  of_row (rowXY 0x800E .shl) (mem_table (by simp [rows10]))
    (packXYN_mask_last _ x y _) (congrArg₂ Instr.shl (fieldX_packXYN _ x y _) (fieldY_packXYN _ x y _))

theorem sneReg (x y : Reg) : Statement (.sneReg x y) :=
  of_row (rowXY 0x9000 .sneReg) (mem_table (by simp [rows19]))
    (packXYN_mask_last _ x y _) (congrArg₂ Instr.sneReg (fieldX_packXYN _ x y _) (fieldY_packXYN _ x y _))

theorem ldI (nnn : BitVec 12) : Statement (.ldI nnn) :=
  of_row (rowA 0xA000 .ldI) (mem_table (by simp [rows19]))
    (packA_mask _ nnn) (congrArg Instr.ldI (fieldNNN_packA _ nnn))

theorem jpV0 (nnn : BitVec 12) : Statement (.jpV0 nnn) :=
  of_row (rowA 0xB000 .jpV0) (mem_table (by simp [rows19]))
    (packA_mask _ nnn) (congrArg Instr.jpV0 (fieldNNN_packA _ nnn))

theorem rnd (x : Reg) (kk : Byte) : Statement (.rnd x kk) :=
  of_row (rowXK 0xC000 .rnd) (mem_table (by simp [rows19]))
    (packXK_mask _ x kk) (congrArg₂ Instr.rnd (fieldX_packXK _ x kk) (fieldKK_packXK _ x kk))

theorem drw (x y : Reg) (n : Fin 16) : Statement (.drw x y n) :=
  of_row (rowXYN 0xD000 .drw) (mem_table (by simp [rows19]))
    (packXYN_mask _ x y n) (by simp [rowXYN, encodeWord])

theorem skp (x : Reg) : Statement (.skp x) :=
  of_row (rowXF 0xE09E .skp) (mem_table (by simp [rows19]))
    (packXK_mask_byte _ x _) (congrArg Instr.skp (fieldX_packXK _ x _))

theorem sknp (x : Reg) : Statement (.sknp x) :=
  of_row (rowXF 0xE0A1 .sknp) (mem_table (by simp [rows19]))
    (packXK_mask_byte _ x _) (congrArg Instr.sknp (fieldX_packXK _ x _))

theorem ldVxDt (x : Reg) : Statement (.ldVxDt x) :=
  of_row (rowXF 0xF007 .ldVxDt) (mem_table (by simp [rows26]))
    (packXK_mask_byte _ x _) (congrArg Instr.ldVxDt (fieldX_packXK _ x _))

theorem ldVxK (x : Reg) : Statement (.ldVxK x) :=
  of_row (rowXF 0xF00A .ldVxK) (mem_table (by simp [rows26]))
    (packXK_mask_byte _ x _) (congrArg Instr.ldVxK (fieldX_packXK _ x _))

theorem ldDtVx (x : Reg) : Statement (.ldDtVx x) :=
  of_row (rowXF 0xF015 .ldDtVx) (mem_table (by simp [rows26]))
    (packXK_mask_byte _ x _) (congrArg Instr.ldDtVx (fieldX_packXK _ x _))

theorem ldStVx (x : Reg) : Statement (.ldStVx x) :=
  of_row (rowXF 0xF018 .ldStVx) (mem_table (by simp [rows26]))
    (packXK_mask_byte _ x _) (congrArg Instr.ldStVx (fieldX_packXK _ x _))

theorem addI (x : Reg) : Statement (.addI x) :=
  of_row (rowXF 0xF01E .addI) (mem_table (by simp [rows26]))
    (packXK_mask_byte _ x _) (congrArg Instr.addI (fieldX_packXK _ x _))

theorem ldF (x : Reg) : Statement (.ldF x) :=
  of_row (rowXF 0xF029 .ldF) (mem_table (by simp [rows26]))
    (packXK_mask_byte _ x _) (congrArg Instr.ldF (fieldX_packXK _ x _))

theorem ldB (x : Reg) : Statement (.ldB x) :=
  of_row (rowXF 0xF033 .ldB) (mem_table (by simp [rows26]))
    (packXK_mask_byte _ x _) (congrArg Instr.ldB (fieldX_packXK _ x _))

theorem dump (x : Reg) : Statement (.dump x) :=
  of_row (rowXF 0xF055 .dump) (mem_table (by simp [rows26]))
    (packXK_mask_byte _ x _) (congrArg Instr.dump (fieldX_packXK _ x _))

theorem load (x : Reg) : Statement (.load x) :=
  of_row (rowXF 0xF065 .load) (mem_table (by simp [rows26]))
    (packXK_mask_byte _ x _) (congrArg Instr.load (fieldX_packXK _ x _))

theorem sys (nnn : BitVec 12) : Statement (.sys nnn) :=
  of_row (rowA 0x0000 .sys) (mem_table (by simp [rows26]))
    (packA_mask _ nnn) (congrArg Instr.sys (fieldNNN_packA _ nnn))

end Sys2Proof.Laws.RowMatch
end

