-- ==== Sys2Proof/Laws/Step.lean ====
section
/-! SUPPORT. What the shared operations behind a step answer: the fetch, the execute cycle, the violation, and the
meanings that may raise it. -/

namespace Sys2Proof.Machine

/-! ## The violation -/

/-- The memory of free values after a violation is in canonical form. -/
theorem State.raiseIndexBounds_wf (s : State) :
    s.raiseIndexBounds.mem.wf (unlisted s.raiseIndexBounds.font) = true :=
  Memory.wf_tabulate (unlisted s.font) (Config.fatalByte s.free)

/-! ## Frames of the shared operations -/

/-- A skip writes pc only (R80). -/
theorem State.skipIf_eq (s : State) (c : Bool) : s.skipIf c = s.setPc (if c then s.pc + 4 else s.pc + 2) := by
  unfold State.skipIf
  split <;> rfl

/-- Loading registers writes registers only (R130). -/
theorem State.setVFrom_frame (s : State) (k : Nat) (bs : List Byte) :
    s.setVFrom k bs = { s with v := (s.setVFrom k bs).v } := by
  induction bs generalizing s k with
  | nil => rfl
  | cons b bs ih => rw [State.setVFrom, ih]

/-- A draw changes the model's own input fields only (R114). -/
theorem State.afterRnd_frame (s : State) :
    s.afterRnd = { s with rnd := s.afterRnd.rnd, free := s.afterRnd.free } := by
  unfold State.afterRnd
  split <;> rfl

/-- A push writes the stack and its depth only (R83). -/
theorem State.pushFrame_frame (s : State) (w : Word) :
    s.pushFrame w = { s with stack := (s.pushFrame w).stack, sp := (s.pushFrame w).sp } := by
  unfold State.pushFrame
  split <;> rfl

/-! ## Fetch -/

/-- The fetch is legal exactly when both its bytes lie in memory (R44), and gives them high byte first (R41). -/
theorem State.fetchWord_eq (s : State) :
    s.fetchWord =
      if s.pc.toNat + 1 < Config.memSize then
        some (wordOfBytes (s.byteAt s.pc.toNat) (s.byteAt (s.pc.toNat + 1)))
      else none := by
  unfold State.fetchWord State.memRead
  by_cases h : s.pc.toNat + 1 < Config.memSize
  · have h' : s.pc.toNat < Config.memSize := by omega
    rw [if_pos h, if_pos h, if_pos h']
  · rw [if_neg h, if_neg h]
    split <;> simp_all

/-! ## Events -/

theorem step_eq (s : State) : step s = deliver s.nextEvent s.takeEvent := rfl

@[simp] theorem State.nextEvent_nil (s : State) (h : s.events = []) : s.nextEvent = .step := by
  simp [State.nextEvent, h]

@[simp] theorem State.nextEvent_cons (s : State) (e : Event) (es : List Event) (h : s.events = e :: es) :
    s.nextEvent = e := by
  simp [State.nextEvent, h]

/-- `Step` in RUN is the execute cycle; in the other modes it does nothing (R64, R165, R179). -/
theorem stepEvent_run (s : State) (h : s.mode = .run) : stepEvent s = execCycle s.sealBoot := by
  simp [stepEvent, h]

theorem stepEvent_of_ne_run (s : State) (h : s.mode ≠ .run) : stepEvent s = .next s := by
  unfold stepEvent
  split <;> simp_all

/-- The execute cycle by cases: a fetch violation, an instruction, or a decode miss (R64, R182). -/
theorem execCycle_cases (s : State) :
    (s.fetchWord = none ∧ execCycle s = .next s.raiseIndexBounds) ∨
    (∃ w i, s.fetchWord = some w ∧ resolve w = some i ∧ execCycle s = exec i s) ∨
    (∃ w, s.fetchWord = some w ∧ resolve w = none ∧ execCycle s = execUnknown w s) := by
  unfold execCycle
  cases hf : s.fetchWord with
  | none => exact .inl ⟨rfl, rfl⟩
  | some w =>
    cases hr : resolve w with
    | some i => exact .inr (.inl ⟨w, i, rfl, hr, by simp [hr]⟩)
    | none => exact .inr (.inr ⟨w, rfl, hr, by simp [hr]⟩)

/-! ## The meanings that read or write memory, or name a key -/

/-- FX33 completes exactly when I + 2 lies in memory (R126). -/
theorem execLdB_cases (x : Reg) (s : State) :
    (s.dataAddr 2 < Config.memSize ∧
      ∃ t, s.writeBytes (s.dataAddr 0) (bcdDigits (s.getV x)) = some t ∧ execLdB x s = .next t.advance) ∨
    (Config.memSize ≤ s.dataAddr 2 ∧ execLdB x s = .next s.raiseIndexBounds) := by
  have hn := s.writeBytes_eq_none (s.dataAddr 0) (bcdDigits (s.getV x))
  unfold execLdB
  cases hw : s.writeBytes (s.dataAddr 0) (bcdDigits (s.getV x)) with
  | none =>
    have := (hn.mp hw).2
    simp only [length_bcdDigits, State.dataAddr] at this ⊢
    exact .inr ⟨by omega, trivial⟩
  | some t =>
    refine .inl ⟨?_, t, rfl, rfl⟩
    by_contra hge
    have : s.writeBytes (s.dataAddr 0) (bcdDigits (s.getV x)) = none := by
      refine hn.mpr ⟨by simp [bcdDigits], ?_⟩
      simp only [length_bcdDigits, State.dataAddr] at hge ⊢
      omega
    simp [hw] at this

/-- FX55 completes exactly when I + X lies in memory (R128). -/
theorem execDump_cases (x : Reg) (s : State) :
    (s.dataAddr x.val < Config.memSize ∧
      ∃ t, s.writeBytes (s.dataAddr 0) (s.regsUpTo x) = some t ∧ execDump x s = .next t.advance) ∨
    (Config.memSize ≤ s.dataAddr x.val ∧ execDump x s = .next s.raiseIndexBounds) := by
  have hn := s.writeBytes_eq_none (s.dataAddr 0) (s.regsUpTo x)
  unfold execDump
  cases hw : s.writeBytes (s.dataAddr 0) (s.regsUpTo x) with
  | none =>
    have := (hn.mp hw).2
    simp only [State.length_regsUpTo, State.dataAddr] at this ⊢
    exact .inr ⟨by omega, trivial⟩
  | some t =>
    refine .inl ⟨?_, t, rfl, rfl⟩
    by_contra hge
    have : s.writeBytes (s.dataAddr 0) (s.regsUpTo x) = none := by
      refine hn.mpr ⟨fun e => ?_, ?_⟩
      · have := congrArg List.length e
        simp at this
      · simp only [State.length_regsUpTo, State.dataAddr] at hge ⊢
        omega
    simp [hw] at this

/-- The `n` bytes at I upward. -/
def State.dataBytes (s : State) (n : Nat) : List Byte := (List.range n).map fun j => s.byteAt (s.dataAddr j)

/-- Reading `n` bytes at I completes exactly when `n` is 0 or the last lies in memory (R44, R120). -/
theorem State.readData_eq (s : State) (n : Nat) :
    s.readBytes (s.dataAddr 0) n =
      if n = 0 ∨ s.dataAddr n ≤ Config.memSize then some (s.dataBytes n) else none :=
  s.readBytes_eq s.ireg.toNat n

/-- FX65 completes exactly when I + X lies in memory, and loads the bytes in order (R130). -/
theorem execLoad_cases (x : Reg) (s : State) :
    (s.dataAddr x.val < Config.memSize ∧
      execLoad x s = .next (s.setVFrom 0 (s.dataBytes (x.val + 1))).advance) ∨
    (Config.memSize ≤ s.dataAddr x.val ∧ execLoad x s = .next s.raiseIndexBounds) := by
  have hr := s.readData_eq (x.val + 1)
  by_cases h : s.dataAddr x.val < Config.memSize
  · rw [if_pos (.inr (show s.dataAddr (x.val + 1) ≤ Config.memSize from h))] at hr
    exact .inl ⟨h, by simp [execLoad, hr]⟩
  · have h' : ¬ (x.val + 1 = 0 ∨ s.dataAddr (x.val + 1) ≤ Config.memSize) := by
      rintro (e | e)
      · omega
      · exact h e
    rw [if_neg h'] at hr
    exact .inr ⟨Nat.le_of_not_lt h, by simp [execLoad, hr]⟩

/-- DXYN completes exactly when N is 0 or I + N - 1 lies in memory (R143). -/
theorem execDrw_cases (x y : Reg) (n : Fin 16) (s : State) :
    ((n.val = 0 ∨ s.dataAddr n.val ≤ Config.memSize) ∧
      execDrw x y n s =
        .next (((s.setFb (drawSprite (s.getV x) (s.getV y) (s.dataBytes n.val) s.fb).1).setV VF
          (flagByte (drawSprite (s.getV x) (s.getV y) (s.dataBytes n.val) s.fb).2)).advance)) ∨
    (¬ (n.val = 0 ∨ s.dataAddr n.val ≤ Config.memSize) ∧ execDrw x y n s = .next s.raiseIndexBounds) := by
  have hr := s.readData_eq n.val
  by_cases h : n.val = 0 ∨ s.dataAddr n.val ≤ Config.memSize
  · rw [if_pos h] at hr
    exact .inl ⟨h, by simp [execDrw, hr]⟩
  · rw [if_neg h] at hr
    exact .inr ⟨h, by simp [execDrw, hr]⟩

theorem keyIndex_of_lt (b : Byte) (h : b.toNat < 16) : keyIndex b = some ⟨b.toNat, h⟩ := by
  simp [keyIndex, h]

theorem keyIndex_of_ge (b : Byte) (h : 16 ≤ b.toNat) : keyIndex b = none := by
  simp [keyIndex, Nat.not_lt.mpr h]

end Sys2Proof.Machine
end

