-- ==== Sys2Proof/Tests/Slice0.lean ====
section
/-! SUPPORT. Tests on fixed values. The expected results are the rows of spec/95_test_vectors.md, whose ids stand in the
comments (S1, W, T, A, M, F, K, E); after them a witness for the hypotheses of every statement. -/

namespace Sys2Proof.Tests

open Sys2Proof.Machine Sys2Proof.Claims

/-! ## Helpers -/

/-- `f` of the next state, if there is one. -/
def after {α : Type} (o : Out) (f : State → α) : Option α :=
  match o with
  | .next t => some (f t)
  | _ => none

/-- Where `after` answers, there is a next state. -/
theorem next_of_after {α : Type} {o : Out} {f : State → α} {a : α} (h : after o f = some a) :
    ∃ t, o = .next t ∧ f t = a := by
  cases o with
  | next t => exact ⟨t, rfl, by simpa [after] using h⟩
  | _ => simp [after] at h

/-- One step on the word `w` laid at pc. -/
def runWord {α : Type} (s : State) (w : Nat) (f : State → α) : Option α := after (step (s.withFetchWord 16 w)) f

/-- The reset state with some registers set. -/
def regs (l : List (Reg × Byte)) : State := l.foldl (fun s p => s.setV p.1 p.2) State.reset

/-- The same with I set and some bytes at I upward. -/
def withI (s : State) (i : Word) (bytes : List Byte) : State :=
  ((s.setI i).writeBytes i.toNat bytes).getD s

/-- A state with `n` live stack entries, all equal to `w`, and pc at `p`. -/
def stackOf (n : Fin 17) (w p : Word) : State :=
  { State.reset with sp := n, stack := Vector.replicate 16 w, pc := p }

/-- The reset state with some pixels on. -/
def withPixels (s : State) (l : List (Fin 64 × Fin 32)) : State :=
  l.foldl (fun s p => s.setFb (s.fb.flip p.1 p.2)) s

/-- The pixels of a state that are on, column by column in row 0 to 31. -/
def pixelsOn (s : State) : List (Nat × Nat) :=
  (List.finRange 32).flatMap fun y => ((List.finRange 64).filter fun x => s.pixel x y).map fun x => (x.val, y.val)

/-- The reset state waiting for a key into `x` at address `p`. -/
def waiting (x : Reg) (p : Word) : State := { State.reset with mode := .awaitKey, waitReg := x, pc := p }

/-- The reset state in FATAL. -/
def fatalState : State := { State.reset with mode := .fatal }

/-! ## Well-formedness: each check refuses an ill-formed term -/

theorem test_wf_refuses_sys_0E0 : (Instr.sys 0x0E0).wf = false := by decide
theorem test_wf_refuses_sys_0EE : (Instr.sys 0x0EE).wf = false := by decide
theorem test_wf_takes_sys_0E1 : (Instr.sys 0x0E1).wf = true := by decide

/-! ## Decoding: the sample words S1, in table order -/

theorem test_decode_00E0 : decode [0x00, 0xE0] = .ok (.cls, []) := by rfl
theorem test_decode_00EE : decode [0x00, 0xEE] = .ok (.ret, []) := by rfl
theorem test_decode_1234 : decode [0x12, 0x34] = .ok (.jp 0x234, []) := by rfl
theorem test_decode_2345 : decode [0x23, 0x45] = .ok (.call 0x345, []) := by rfl
theorem test_decode_3456 : decode [0x34, 0x56] = .ok (.seImm 4 0x56, []) := by rfl
theorem test_decode_4567 : decode [0x45, 0x67] = .ok (.sneImm 5 0x67, []) := by rfl
theorem test_decode_5670 : decode [0x56, 0x70] = .ok (.seReg 6 7, []) := by rfl
theorem test_decode_6789 : decode [0x67, 0x89] = .ok (.ldImm 7 0x89, []) := by rfl
theorem test_decode_789A : decode [0x78, 0x9A] = .ok (.addImm 8 0x9A, []) := by rfl
theorem test_decode_8AB0 : decode [0x8A, 0xB0] = .ok (.ldReg 0xA 0xB, []) := by rfl
theorem test_decode_8AB1 : decode [0x8A, 0xB1] = .ok (.orReg 0xA 0xB, []) := by rfl
theorem test_decode_8AB2 : decode [0x8A, 0xB2] = .ok (.andReg 0xA 0xB, []) := by rfl
theorem test_decode_8AB3 : decode [0x8A, 0xB3] = .ok (.xorReg 0xA 0xB, []) := by rfl
theorem test_decode_8AB4 : decode [0x8A, 0xB4] = .ok (.addReg 0xA 0xB, []) := by rfl
theorem test_decode_8AB5 : decode [0x8A, 0xB5] = .ok (.subReg 0xA 0xB, []) := by rfl
theorem test_decode_8AB6 : decode [0x8A, 0xB6] = .ok (.shr 0xA 0xB, []) := by rfl
theorem test_decode_8AB7 : decode [0x8A, 0xB7] = .ok (.subn 0xA 0xB, []) := by rfl
theorem test_decode_8ABE : decode [0x8A, 0xBE] = .ok (.shl 0xA 0xB, []) := by rfl
theorem test_decode_9AB0 : decode [0x9A, 0xB0] = .ok (.sneReg 0xA 0xB, []) := by rfl
theorem test_decode_ABCD : decode [0xAB, 0xCD] = .ok (.ldI 0xBCD, []) := by rfl
theorem test_decode_BCDE : decode [0xBC, 0xDE] = .ok (.jpV0 0xCDE, []) := by rfl
theorem test_decode_CDEF : decode [0xCD, 0xEF] = .ok (.rnd 0xD 0xEF, []) := by rfl
theorem test_decode_DEF1 : decode [0xDE, 0xF1] = .ok (.drw 0xE 0xF 1, []) := by rfl
theorem test_decode_E19E : decode [0xE1, 0x9E] = .ok (.skp 1, []) := by rfl
theorem test_decode_E1A1 : decode [0xE1, 0xA1] = .ok (.sknp 1, []) := by rfl
theorem test_decode_F107 : decode [0xF1, 0x07] = .ok (.ldVxDt 1, []) := by rfl
theorem test_decode_F10A : decode [0xF1, 0x0A] = .ok (.ldVxK 1, []) := by rfl
theorem test_decode_F115 : decode [0xF1, 0x15] = .ok (.ldDtVx 1, []) := by rfl
theorem test_decode_F118 : decode [0xF1, 0x18] = .ok (.ldStVx 1, []) := by rfl
theorem test_decode_F11E : decode [0xF1, 0x1E] = .ok (.addI 1, []) := by rfl
theorem test_decode_F129 : decode [0xF1, 0x29] = .ok (.ldF 1, []) := by rfl
theorem test_decode_F133 : decode [0xF1, 0x33] = .ok (.ldB 1, []) := by rfl
theorem test_decode_F155 : decode [0xF1, 0x55] = .ok (.dump 1, []) := by rfl
theorem test_decode_F165 : decode [0xF1, 0x65] = .ok (.load 1, []) := by rfl
theorem test_decode_0123 : decode [0x01, 0x23] = .ok (.sys 0x123, []) := by rfl

/-- W3 to W7: neighbours of 00E0 and 00EE are `0NNN`, and the top digit decides. -/
theorem test_decode_near_cls :
    [0x00E1, 0x00FE, 0x0000, 0x0FFF, 0x10E0].map (decodeTableWord 16) =
      [some (.sys 0x0E1), some (.sys 0x0FE), some (.sys 0), some (.sys 0xFFF), some (.jp 0x0E0)] := by rfl

/-- W9 to W36: the decode misses of the list. -/
theorem test_decode_misses :
    ([0x5AB1, 0x5ABF, 0x8AB8, 0x8ABD, 0x8ABF, 0x9AB5, 0xE19F, 0xE1A0, 0xE000, 0xF10B, 0xF156, 0xF175, 0xF034, 0xF000,
      0xFFFF].all fun w => (decodeTableWord 16 w).isNone) = true := by rfl

/-- The bytes of a word, high byte first, and what follows them stays (R41, R60). -/
theorem test_decode_rest : decode [0x8A, 0xB7, 0x12] = .ok (.subn 0xA 0xB, [0x12]) := by rfl
theorem test_decode_truncated : decode [0x8A] = .error .truncated := by rfl

/-! ## Control flow -/

-- T1, T3
theorem test_sys : runWord { State.reset with pc := 0x0204 } 0x0123 (·.pc) = some 0x0206 := by decide
theorem test_sys_near_cls : runWord State.reset 0x00E1 (·.pc) = some 0x0202 := by decide
-- T4, T6
theorem test_jp : runWord { State.reset with pc := 0x020A } 0x1204 (·.pc) = some 0x0204 := by decide
theorem test_jp_odd : runWord State.reset 0x1001 (·.pc) = some 0x0001 := by decide
-- T9, T12
theorem test_call :
    runWord { State.reset with pc := 0x0202 } 0x2210 (fun t => (t.pc, t.sp, t.stack[0])) = some (0x0210, 1, 0x0202) := by
  decide
theorem test_call_full :
    runWord (stackOf 16 0x0ABC 0x0300) 0x2400 (fun t => (t.pc, t.sp, t.stack[15])) = some (0x0400, 16, 0x0ABC) := by
  decide
-- T14, T11
theorem test_ret : runWord (stackOf 16 0x0ABC 0x0400) 0x00EE (fun t => (t.pc, t.sp)) = some (0x0ABE, 15) := by decide
theorem test_ret_empty : runWord State.reset 0x00EE (fun t => (t.pc, t.sp)) = some (0x0202, 0) := by decide
-- T15, T16
theorem test_seImm_equal : runWord (regs [(3, 0x2A)]) 0x332A (·.pc) = some 0x0204 := by decide
theorem test_seImm_other : runWord (regs [(3, 0x2B)]) 0x332A (·.pc) = some 0x0202 := by decide
-- T17, T18
theorem test_sneImm_equal : runWord (regs [(3, 0x2A)]) 0x432A (·.pc) = some 0x0202 := by decide
theorem test_sneImm_other : runWord State.reset 0x432A (·.pc) = some 0x0204 := by decide
-- T19, T20
theorem test_seReg_equal : runWord (regs [(1, 7), (2, 7)]) 0x5120 (·.pc) = some 0x0204 := by decide
theorem test_seReg_other : runWord (regs [(1, 7), (2, 8)]) 0x5120 (·.pc) = some 0x0202 := by decide
-- T22, T23
theorem test_sneReg_other : runWord (regs [(1, 7), (2, 8)]) 0x9120 (·.pc) = some 0x0204 := by decide
theorem test_sneReg_equal : runWord (regs [(1, 7), (2, 7)]) 0x9120 (·.pc) = some 0x0202 := by decide
-- T25, T26
theorem test_jpV0_high : runWord (regs [(0, 0xFF)]) 0xBFFF (·.pc) = some 0x10FE := by decide
theorem test_jpV0_x_digit : runWord (regs [(0, 1), (3, 0x80)]) 0xB300 (·.pc) = some 0x0301 := by decide
-- T27, T8
theorem test_decode_miss : runWord State.reset 0x5121 (fun t => (t.pc, t.reports)) = some (0x0202, [0x5121]) := by decide
theorem test_fetch_past_memory : after (step { State.reset with pc := 0x0FFF }) (·.mode) = some .fatal := by rfl

/-! ## Registers and ALU -/

-- A2, A3, A5, A6
theorem test_ldImm_VF : runWord State.reset 0x6F07 (·.getV 15) = some 7 := by decide
theorem test_addImm_wraps : runWord (regs [(0, 0xFF), (15, 0x55)]) 0x7002 (fun t => (t.getV 0, t.getV 15)) = some (1, 0x55) := by
  decide
theorem test_addImm_VF : runWord (regs [(15, 0xFE)]) 0x7F03 (·.getV 15) = some 1 := by decide
theorem test_ldReg : runWord (regs [(2, 0x5A)]) 0x8120 (·.getV 1) = some 0x5A := by decide
-- A7, A8, A9, A10
theorem test_orReg : runWord (regs [(1, 0xF0), (2, 0x0F), (15, 0x77)]) 0x8121 (fun t => (t.getV 1, t.getV 15)) =
    some (0xFF, 0x77) := by decide
theorem test_andReg : runWord (regs [(1, 0xF3), (2, 0x3C), (15, 0x77)]) 0x8122 (fun t => (t.getV 1, t.getV 15)) =
    some (0x30, 0x77) := by decide
theorem test_xorReg : runWord (regs [(1, 0xFF), (2, 0x0F), (15, 0x77)]) 0x8123 (fun t => (t.getV 1, t.getV 15)) =
    some (0xF0, 0x77) := by decide
theorem test_xorReg_same : runWord (regs [(4, 0xAB)]) 0x8443 (·.getV 4) = some 0 := by decide
-- A11, A16
theorem test_addReg : runWord (regs [(1, 0xFA), (2, 0x0A)]) 0x8124 (fun t => (t.getV 1, t.getV 15)) = some (4, 1) := by
  decide
theorem test_addReg_VF : runWord (regs [(15, 0xC8), (1, 0x64)]) 0x8F14 (·.getV 15) = some 0x2C := by decide
-- A20, A25
theorem test_subReg : runWord (regs [(1, 5), (2, 0x0A)]) 0x8125 (fun t => (t.getV 1, t.getV 15)) = some (0xFB, 0) := by
  decide
theorem test_subReg_VF_operand : runWord (regs [(15, 3), (1, 0x0A)]) 0x81F5 (fun t => (t.getV 1, t.getV 15)) =
    some (7, 1) := by decide
-- A27, A29
theorem test_shr : runWord (regs [(1, 4), (2, 0xFF), (15, 1)]) 0x8126 (fun t => (t.getV 1, t.getV 15)) = some (2, 0) := by
  decide
theorem test_shr_VF : runWord (regs [(15, 3)]) 0x8F06 (·.getV 15) = some 1 := by decide
-- A31, A34
theorem test_subn : runWord (regs [(1, 0x0A), (2, 5), (15, 1)]) 0x8127 (fun t => (t.getV 1, t.getV 15)) =
    some (0xFB, 0) := by decide
theorem test_subn_VF : runWord (regs [(15, 0x0A), (1, 5)]) 0x8F17 (·.getV 15) = some 0xFB := by decide
-- A37, A38
theorem test_shl : runWord (regs [(1, 0xFF)]) 0x812E (fun t => (t.getV 1, t.getV 15)) = some (0xFE, 1) := by decide
theorem test_shl_VF : runWord (regs [(15, 0x81)]) 0x8F0E (·.getV 15) = some 2 := by decide
-- A39, A42
theorem test_rnd : runWord { State.reset with rnd := [1000] } 0xC10F (fun t => (t.getV 1, t.rnd)) = some (8, []) := by decide
theorem test_rnd_not_mask : runWord { State.reset with rnd := [5] } 0xC40A (·.getV 4) = some 5 := by decide

/-! ## Index register and memory -/

-- M2, M4, M8
theorem test_ldI : runWord (State.reset.setI 0x1234) 0xAFFF (·.ireg) = some 0x0FFF := by decide
theorem test_addI : runWord ((regs [(2, 1)]).setI 0x0FFF) 0xF21E (fun t => (t.ireg, t.getV 15)) = some (0x1000, 1) := by
  decide
theorem test_addI_VF : runWord ((regs [(15, 7)]).setI 0x0100) 0xFF1E (fun t => (t.ireg, t.getV 15)) = some (0x0107, 0) := by
  decide
-- M9, M11
theorem test_ldF : runWord (regs [(0, 5)]) 0xF029 (·.ireg) = some 0x0019 := by decide
theorem test_ldF_not_masked : runWord (regs [(0, 0xFF)]) 0xF029 (·.ireg) = some 0x04FB := by decide
-- M15, M16
theorem test_ldB : runWord ((regs [(0, 0xFF)]).setI 0x0FFD) 0xF033
    (fun t => (t.byteAt 0xFFD, t.byteAt 0xFFE, t.byteAt 0xFFF, t.ireg)) = some (2, 5, 5, 0x0FFD) := by decide
theorem test_ldB_past_memory : runWord ((regs [(0, 0xFF)]).setI 0x0FFE) 0xF033 (·.mode) = some .fatal := by rfl
-- M17, M19
theorem test_dump : runWord ((regs [(0, 1), (1, 2), (2, 3), (3, 4)]).setI 0x0400) 0xF255
    (fun t => ([0x400, 0x401, 0x402, 0x403].map t.byteAt, t.ireg)) = some ([1, 2, 3, 0], 0x0400) := by decide
theorem test_dump_past_memory : runWord ((regs [(0, 1)]).setI 0x0FF1) 0xFF55 (·.mode) = some .fatal := by rfl
-- M21 with M25, M22
theorem test_load : runWord (withI (regs [(3, 0x44)]) 0x0300 [2, 5, 5, 9]) 0xF265
    (fun t => ([0, 1, 2, 3].map t.getV, t.ireg)) = some ([2, 5, 5, 0x44], 0x0300) ∧
    runWord (State.reset.setI 0xFFFF) 0xF165 (·.mode) = some .fatal := ⟨by decide, by rfl⟩
theorem test_load_font : runWord State.reset 0xF465 (fun t => [0, 1, 2, 3, 4].map t.getV) =
    some [0xF0, 0x90, 0x90, 0x90, 0xF0] := by decide

/-! ## Framebuffer -/

-- F14
theorem test_cls : runWord (withPixels (regs [(15, 1)]) [(0, 0), (63, 31), (10, 10)]) 0x00E0
    (fun t => (pixelsOn t, t.getV 15)) = some ([], 1) := by decide +kernel
-- F5, F6 in one: two rows across both edges (also event 4 of P3)
theorem test_drw_wraps : runWord (withI (regs [(1, 0x3E), (2, 0x1F)]) 0x0210 [0xFF, 0x81]) 0xD122
    (fun t => (pixelsOn t, t.getV 15)) =
    some ([(5, 0), (62, 0), (0, 31), (1, 31), (2, 31), (3, 31), (4, 31), (5, 31), (62, 31), (63, 31)], 0) := by
  decide +kernel
-- F8 with F10
theorem test_drw_collides : runWord (withPixels (withI State.reset 0x0300 [0xC0]) [(1, 0)]) 0xD011
      (fun t => (pixelsOn t, t.getV 15)) = some ([(0, 0)], 1) ∧
    runWord (withI (regs [(15, 3), (1, 2)]) 0x0300 [0x80]) 0xDF11
      (fun t => (pixelsOn t, t.getV 15)) = some ([(3, 2)], 0) := ⟨by decide +kernel, by decide +kernel⟩

/-! ## Timers and keys -/

-- K1, K2, K3
theorem test_ldDtVx : runWord (regs [(0, 0x0A)]) 0xF015 (·.dt) = some 10 := by decide
theorem test_ldVxDt : runWord { State.reset with dt := 8 } 0xF207 (·.getV 2) = some 8 := by decide
theorem test_ldStVx : runWord (regs [(3, 0x3C)]) 0xF318 (·.st) = some 60 := by decide
-- K4, K10
theorem test_skp : runWord ((regs [(1, 7)]).setKey 7 true) 0xE19E (·.pc) = some 0x0204 := by decide
theorem test_skp_past_keys : runWord ((regs [(1, 0x17)]).setKey 7 true) 0xE19E (·.mode) = some .fatal := by rfl
-- K6, K7
theorem test_sknp_down : runWord ((regs [(1, 7)]).setKey 7 true) 0xE1A1 (·.pc) = some 0x0202 := by decide
theorem test_sknp_up : runWord (regs [(1, 7)]) 0xE1A1 (·.pc) = some 0x0204 := by decide
-- K12
theorem test_ldVxK : runWord (State.reset.setKey 3 true) 0xF10A (fun t => (t.mode, t.waitReg, t.pc)) =
    some (.awaitKey, 1, 0x0200) := by decide

/-! ## Events -/

-- E1, E2, E4
theorem test_frameTick : after (deliver .frameTick { State.reset with dt := 2, st := 1 }) (fun t => (t.dt, t.st)) =
    some (1, 0) := by decide
theorem test_frameTick_floor : after (deliver .frameTick State.reset) (fun t => (t.dt, t.st)) = some (0, 0) := by decide
-- E7, E8
theorem test_keyDown_ends_wait : after (deliver (.keyDown 5) (waiting 1 0x0204))
    (fun t => (t.keyDown 5, t.getV 1, t.pc, t.mode)) = some (true, 5, 0x0206, .run) := by decide
theorem test_keyDown_zero_into_VF : after (deliver (.keyDown 0) ((waiting 15 0x0300).setV 15 0x33))
    (fun t => (t.getV 15, t.pc)) = some (0, 0x0302) := by decide
-- E10, E11
theorem test_keyUp_keeps_wait : after (deliver (.keyUp 5) ((waiting 1 0x0204).setKey 5 true))
    (fun t => (t.keyDown 5, t.mode, t.pc)) = some (false, .awaitKey, 0x0204) := by decide
-- E12
theorem test_step_waits : step (waiting 1 0x0204) = .next (waiting 1 0x0204) := by rfl
-- E14
theorem test_reset_leaves_fatal : after (deliver .reset fatalState) (fun t => (t.mode, t.pc)) = some (.run, 0x0200) := by
  decide
-- E15
theorem test_load_rom : after (deliver (.load [0xAB, 0xCD, 0xEF]) State.reset)
    (fun t => ([0x1FF, 0x200, 0x201, 0x202, 0x203].map t.byteAt, t.fetchWord)) =
    some ([0, 0xAB, 0xCD, 0xEF, 0], some 0xABCD) := by decide
-- A list of host events is delivered in order (assumption 4): P4, events 3 to 5.
theorem test_events_in_order :
    after (step { waiting 1 0x0204 with dt := 10, events := [.frameTick, .keyDown 7] }) (fun t => (t.dt, t.events)) =
      some (9, [.keyDown 7]) := by decide

/-! ## What the host asks: the decoder's answer and the first step after reset -/

theorem test_first_step_after_reset :
    runWord State.reset 0x6A2C (fun t => (t.getV 0xA, t.pc)) = some (0x2C, 0x0202) := by decide
theorem test_decodeTableWord : decodeTableWord 16 0x8AB7 = some (.subn 0xA 0xB) := by rfl

/-! ## Witnesses: for every statement with hypotheses, a state and operands that meet them together, clause by clause at
the boundary of its range -/

theorem witness_ResolveTakesFirstMatchingRow :
    (∃ h : 34 < instrTable.length, instrTable[34].hits 0x0FFF = true ∧
      ∀ j (hj : j < 34), (instrTable[j]'(by omega)).hits 0x0FFF = false) ∧
    (∀ r ∈ instrTable, r.hits 0xFFFF = false) := by
  refine ⟨⟨by decide, by decide, ?_⟩, by decide⟩
  decide

theorem witness_DecodeOfEncodeIsTheInstruction : (Instr.sys 0x0ED).wf = true ∧ (Instr.sys 0x0EF).wf = true := by decide

theorem witness_EncodeOfDecodeIsTheWord : resolve 0x00EF = some (.sys 0x0EF) := by rfl

theorem witness_StepRunsTheDecodedInstruction :
    let s := (State.reset.setPc 0x0FFE).poke 0xFFF 0xE0
    s.nextEvent = .step ∧ s.mode = .run ∧ s.pc.toNat + 1 ≤ 4095 ∧ s.byteAt s.pc.toNat = 0x00 ∧
      s.byteAt (s.pc.toNat + 1) = 0xE0 ∧ decode [0x00, 0xE0] = .ok (.cls, []) := by
  refine ⟨by rfl, by rfl, by decide, by decide, by decide, by rfl⟩

theorem witness_DecodeMissIsReportedAndSkipped :
    let s := withI State.reset 0x0200 [0xFF, 0xFF]
    s.nextEvent = .step ∧ s.mode = .run ∧ s.fetchWord = some 0xFFFF ∧ resolve 0xFFFF = none := by
  refine ⟨by rfl, by rfl, by decide, by rfl⟩

theorem witness_PlacedWordIsTheNextInstruction :
    State.reset.mem.wf (unlisted State.reset.font) = true ∧ resolve 0x8AB7 = some (.subn 0xA 0xB) := ⟨by rfl, by rfl⟩

theorem witness_RandomResultIsTheDrawModuloKkPlusOne :
    { State.reset with rnd := [511] }.rnd = [511] ∧ State.reset.rnd = [] := ⟨rfl, rfl⟩

theorem witness_ValueSkipsAdvanceByOneOrTwoWords :
    (regs [(3, 0x2A)]).getV 3 = 0x2A ∧ (regs [(3, 0x2B)]).getV 3 ≠ 0x2A ∧
      (regs [(1, 7), (2, 7)]).getV 1 = (regs [(1, 7), (2, 7)]).getV 2 ∧
      (regs [(1, 7), (2, 8)]).getV 1 ≠ (regs [(1, 7), (2, 8)]).getV 2 := by decide

/-- The push into the first and the last entry, the full stack. -/
theorem witness_CallPushesItsAddressAndJumps :
    (stackOf 0 0 0x0300).sp.val = (0 : Fin 16).val ∧ (stackOf 15 0 0x0300).sp.val = (15 : Fin 16).val ∧
      (stackOf 16 0 0x0300).sp.val = 16 := by decide

/-- The pop of the last and of the first entry, the empty stack. -/
theorem witness_ReturnPopsAndGoesPastTheCall :
    (stackOf 16 0 0x0300).sp.val = (15 : Fin 16).val + 1 ∧ (stackOf 1 0 0x0300).sp.val = (0 : Fin 16).val + 1 ∧
      (stackOf 0 0 0x0300).sp.val = 0 := by decide

theorem witness_CallThenReturnComesBack :
    ∃ t u : State, (stackOf 15 0 0x0300).sp.val < 16 ∧ exec (.call 0x400) (stackOf 15 0 0x0300) = .next t ∧
      u.sp = t.sp ∧ u.stack = t.stack := ⟨_, _, by decide, rfl, rfl, rfl⟩

/-- I = 0xFFD is the highest that completes, 0xFFE the lowest that does not. -/
theorem witness_BcdStoresThreeDigitsAtIndex :
    State.reset.mem.wf (unlisted State.reset.font) = true ∧ (State.reset.setI 0x0FFD).dataAddr 2 ≤ 4095 ∧
      4095 < (State.reset.setI 0x0FFE).dataAddr 2 := ⟨by rfl, by decide, by decide⟩

/-- I = 0xFF0 is the highest that completes for X = 15, 0xFF1 the lowest that does not. -/
theorem witness_DumpStoresRegistersUpToX :
    State.reset.mem.wf (unlisted State.reset.font) = true ∧ (State.reset.setI 0x0FF0).dataAddr (15 : Reg).val ≤ 4095 ∧
      4095 < (State.reset.setI 0x0FF1).dataAddr (15 : Reg).val := ⟨by rfl, by decide, by decide⟩

theorem witness_LoadReadsRegistersUpToX :
    (State.reset.setI 0x0FFF).dataAddr (0 : Reg).val ≤ 4095 ∧ 4095 < (State.reset.setI 0x0FFF).dataAddr (1 : Reg).val := by
  decide

theorem witness_DumpThenLoadRestoresRegisters :
    ∃ t u : State, State.reset.mem.wf (unlisted State.reset.font) = true ∧ State.reset.dataAddr (15 : Reg).val ≤ 4095 ∧
      exec (.dump 15) State.reset = .next t ∧ u.mem = t.mem ∧ u.font = t.font ∧ u.ireg = t.ireg := by
  exact ⟨_, _, by rfl, by decide, rfl, rfl, rfl, rfl⟩

theorem witness_MemoryWriteChangesItsCellOnly :
    State.reset.mem.wf (unlisted State.reset.font) = true ∧ 4095 ≤ 4095 ∧ 4095 < 4096 := ⟨by rfl, by decide, by decide⟩

/-- M20: the dump at 0x200 stores over the word at 0x202. -/
theorem witness_NextFetchSeesDumpedBytes :
    ∃ t, State.reset.mem.wf (unlisted State.reset.font) = true ∧
      ((regs [(0, 0x12), (1, 0x0A)]).setI 0x0202).dataAddr (1 : Reg).val ≤ 4095 ∧
      exec (.dump 1) ((regs [(0, 0x12), (1, 0x0A)]).setI 0x0202) = .next t ∧ (0 : Reg).val + 1 = (1 : Reg).val ∧
      (1 : Reg).val ≤ (1 : Reg).val ∧
      t.pc.toNat = ((regs [(0, 0x12), (1, 0x0A)]).setI 0x0202).dataAddr (0 : Reg).val := by
  exact ⟨_, by rfl, by decide, rfl, by decide, by decide, by decide⟩

/-- N = 0 with I past memory, and the last cell as the sprite; a covered pixel that is on, one that is off, and a pixel
not covered. -/
theorem witness_DrawFlipsCoveredPixelsAndReportsCollision :
    (0 : Fin 16).val = 0 ∧ (State.reset.setI 0x0FFF).dataAddr ((1 : Fin 16).val - 1) ≤ 4095 ∧
      covered (withI State.reset 0x0FFF [0x80]) 63 31 1 63 31 ∧ (withPixels State.reset [(63, 31)]).pixel 63 31 = true ∧
      State.reset.pixel 63 31 = false ∧ ¬ covered (withI State.reset 0x0FFF [0x80]) 63 31 0 63 31 := by
  refine ⟨rfl, by decide, ⟨0, 0, by decide, by decide, by decide, by decide, by decide⟩, by decide +kernel, by decide +kernel, ?_⟩
  rintro ⟨r, -, hr, -⟩
  omega

theorem witness_DrawTwiceRestoresTheGrid :
    ∃ t, (0 : Reg) ≠ VF ∧ (1 : Reg) ≠ VF ∧
      ((1 : Fin 16).val = 0 ∨ (withI State.reset 0x0FFF [0x80]).dataAddr ((1 : Fin 16).val - 1) ≤ 4095) ∧
      exec (.drw 0 1 1) (withI State.reset 0x0FFF [0x80]) = .next t := by
  exact ⟨_, by decide, by decide, by decide, rfl⟩

/-- The last key, and the first value that names none. -/
theorem witness_KeySkipsReadTheKeyVxNames :
    ((regs [(1, 15)]).getV 1).toNat = (15 : Key).val ∧ 15 < ((regs [(1, 16)]).getV 1).toNat := by decide

theorem witness_KeyWaitEndsOnlyByKeyDownOrReset :
    (waiting 1 0x0204).mode = .awaitKey ∧
      ∃ t, deliver (.keyDown 15) (waiting 1 0x0204) = .next t ∧ t.mode ≠ .awaitKey := ⟨rfl, _, rfl, by decide⟩

theorem witness_KeyDownSetsItsFlagAndEndsAWait :
    State.reset.mode ≠ .fatal ∧ State.reset.mode = .run ∧ (waiting 15 0x0300).mode ≠ .fatal ∧
      (waiting 15 0x0300).mode = .awaitKey := by decide

theorem witness_KeyUpClearsItsFlagOnly : fatalState.mode = .fatal ∧ State.reset.mode ≠ .fatal := by decide

theorem witness_FrameTickCountsBothTimersDown : fatalState.mode = .fatal ∧ (waiting 0 0x0200).mode ≠ .fatal := by decide

/-- The largest ROM, the first too long, and a `Load` out of its place. -/
theorem witness_RomLoadCopiesBytesOrFails :
    State.reset.mode ≠ .fatal ∧ State.reset.loadable = true ∧ (List.replicate 3584 (0xAB : Byte)).length ≤ 3584 ∧
      State.reset.mem.wf (unlisted State.reset.font) = true ∧ 3584 < (List.replicate 3585 (0xAB : Byte)).length ∧
      State.reset.sealBoot.loadable = false := by
  exact ⟨by decide, rfl, by rw [List.length_replicate], by rfl, by rw [List.length_replicate]; decide, rfl⟩

/-- A violation and a completion, on either side of the boundary. -/
theorem witness_FatalExactlyOnTheListedCauses :
    State.reset.mode = .run ∧ violates (.ldB 0) (State.reset.setI 0x0FFE) ∧ ¬ violates (.ldB 0) (State.reset.setI 0x0FFD) ∧
      violates (.drw 0 0 1) (State.reset.setI 0x1000) ∧ ¬ violates (.drw 0 0 1) (State.reset.setI 0x0FFF) ∧
      violates (.skp 1) (regs [(1, 16)]) ∧ ¬ violates (.skp 1) (regs [(1, 15)]) := by
  refine ⟨rfl, ?_, ?_, ?_, ?_, ?_, ?_⟩ <;> unfold violates <;> decide

theorem witness_FetchPastMemoryIsFatal :
    (State.reset.setPc 0x0FFF).nextEvent = .step ∧ (State.reset.setPc 0x0FFF).mode = .run ∧
      4094 < (State.reset.setPc 0x0FFF).pc.toNat := ⟨by rfl, by rfl, by decide⟩

theorem witness_FatalIsLeftOnlyByReset : fatalState.mode = .fatal ∧ (Event.step ≠ .reset) := by decide

/-- The invariant and a step, through an instruction and through a decode miss. -/
theorem witness_StepKeepsTheInvariant :
    (∃ t, State.reset.Inv ∧ step State.reset = .next t) ∧
      ∃ t, (withI State.reset 0x0200 [0xFF, 0xFF]).Inv ∧ step (withI State.reset 0x0200 [0xFF, 0xFF]) = .next t := by
  have h1 : after (step State.reset) (·.pc) = some 0x0202 := by decide
  have h2 : after (step (withI State.reset 0x0200 [0xFF, 0xFF])) (·.pc) = some 0x0202 := by decide
  obtain ⟨t, ht, -⟩ := next_of_after h1
  obtain ⟨u, hu, -⟩ := next_of_after h2
  have none_in : ∀ l : List Word, l = [] → ∀ w ∈ l, resolve w = none := fun l hl w hw => by simp [hl] at hw
  exact ⟨⟨t, ⟨by rfl, none_in _ rfl⟩, ht⟩, ⟨u, ⟨by decide, none_in _ (by decide)⟩, hu⟩⟩

/-- An instruction that writes no flag, and a flag writer whose destination is another register. -/
theorem witness_OnlySevenInstructionsWriteVfAsFlag :
    (∃ t, exec .cls State.reset = .next t ∧ t.mode ≠ .fatal ∧ ¬ destination .cls VF ∧ ¬ writesFlag .cls) ∧
      ∃ t, exec (.addReg 14 15) State.reset = .next t ∧ t.mode ≠ .fatal ∧ ¬ destination (.addReg 14 15) VF ∧
        writesFlag (.addReg 14 15) := by
  refine ⟨⟨_, rfl, by decide, id, id⟩, ⟨_, rfl, by decide, ?_, trivial⟩⟩
  unfold destination
  decide

/-- An instruction listed for none of the pieces of state but V: every clause applies. -/
theorem witness_EachPieceOfStateHasOnlyItsWriters :
    ∃ t, exec (.load 14) State.reset = .next t ∧ t.mode ≠ .fatal ∧ (∀ nnn, Instr.load 14 ≠ .ldI nnn) ∧
      (∀ nnn, Instr.load 14 ≠ .call nnn) ∧ Instr.load 14 ≠ .ret ∧ ¬ destination (.load 14) VF ∧ ¬ writesFlag (.load 14) ∧
      State.reset.mem.wf (unlisted State.reset.font) = true ∧ ¬ stores (.load 14) State.reset 0 := by
  refine ⟨_, rfl, by decide, by simp, by simp, by simp, ?_, id, by rfl, id⟩
  unfold destination
  decide

/-- The three targets of the rule, and an instruction without one. -/
theorem witness_EvenTargetsKeepPcEven :
    evenPc State.reset ∧ targetEven (.call 0xFFE) State.reset ∧ targetEven (.jpV0 0xFFF) (regs [(0, 0xFF)]) ∧
      targetEven .ret State.reset ∧ ∃ t, exec (.call 0xFFE) State.reset = .next t ∧ t.mode ≠ .fatal := by
  refine ⟨⟨by decide, by decide⟩, by unfold targetEven; decide, by unfold targetEven; decide, trivial, _, rfl, by decide⟩

/-- A step that answers a next state outside FATAL, one into FATAL, one that faults and one that is refused. -/
theorem witness_NothingDependsOnTheSoundTimer :
    (∃ t, step State.reset = .next t ∧ t.mode ≠ .fatal) ∧ (∃ t, step (State.reset.setPc 0x0FFF) = .next t ∧ t.mode = .fatal) ∧
      step { State.reset with events := [.load (List.replicate 3585 0)] } = .fault .romLoadFailure ∧
      step { State.reset with events := [.load []], loadable := false } = .refused .loadOutsideBoot := by
  have h1 : after (step State.reset) (·.mode) = some .run := by decide
  obtain ⟨t, ht, hm⟩ := next_of_after h1
  refine ⟨⟨t, ht, by rw [hm]; decide⟩, next_of_after (by rfl), ?_, by rfl⟩
  show loadEvent (List.replicate 3585 0) State.reset = _
  unfold loadEvent
  simp only [State.reset, Config.romMax, List.length_replicate]
  rfl

/-- A skip, the key wait and an instruction that is neither. -/
theorem witness_PcAdvancesByOneWordUnlessListed :
    ∃ t u w, exec (.skp 1) State.reset = .next t ∧ t.mode ≠ .fatal ∧ ¬ redirects (.skp 1) ∧ isSkip (.skp 1) ∧
      exec (.ldVxK 1) State.reset = .next u ∧ u.mode ≠ .fatal ∧ ¬ redirects (.ldVxK 1) ∧
      exec (.dump 1) State.reset = .next w ∧ w.mode ≠ .fatal ∧ ¬ redirects (.dump 1) ∧ ¬ isSkip (.dump 1) ∧
      ∀ x, Instr.dump 1 ≠ .ldVxK x := by
  exact ⟨_, _, _, rfl, by decide, id, trivial, rfl, by decide, id, rfl, by decide, id, id, by simp⟩

end Sys2Proof.Tests
end

section
/-! PROOFS. The statements about the whole state (spec/10_state.md): what an instruction may write, the invariant of
every step, that nothing depends on ST, and the reset values. -/

namespace Sys2Proof.Machine

open Sys2Proof.Claims

/-! ## What an instruction may do -/

/-- The state `t` an instruction `i` completes in from `s`, by the shape of what it writes. Instructions that differ only
in the value they write share a constructor; `exec_cases` ties the relation to `exec`. -/
inductive Effect (s : State) : Instr → State → Prop
  | sys (nnn : BitVec 12) : Effect s (.sys nnn) s.advance
  | jp (nnn : BitVec 12) : Effect s (.jp nnn) (s.setPc (addrOf nnn))
  | jpV0 (nnn : BitVec 12) : Effect s (.jpV0 nnn) (s.setPc (addrPlus nnn (s.getV 0)))
  | call (nnn : BitVec 12) : Effect s (.call nnn) ((s.pushFrame s.pc).setPc (addrOf nnn))
  | ret (w : Word) (hw : s.topFrame = some w) : Effect s .ret (s.popFrame.setPc (w + 2))
  | retEmpty (hw : s.topFrame = none) : Effect s .ret s.advance
  | skips (i : Instr) (c : Bool) (hi : isSkip i) : Effect s i (s.skipIf c)
  | writesReg (i : Instr) (x : Reg) (b : Byte) (hd : destination i x) (hf : ¬ writesFlag i) :
      Effect s i (s.setV x b).advance
  | writesRegAndFlag (i : Instr) (x : Reg) (c : Bool) (b : Byte) (hd : destination i x) (hf : writesFlag i) :
      Effect s i ((s.setV VF (flagByte c)).setV x b).advance
  | rnd (x : Reg) (kk : Byte) : Effect s (.rnd x kk) (s.afterRnd.setV x (reduceRnd s.rndValue kk)).advance
  | ldI (nnn : BitVec 12) : Effect s (.ldI nnn) (s.setI (addrOf nnn)).advance
  | ldF (x : Reg) : Effect s (.ldF x) (s.setI (fontAddr (s.getV x))).advance
  | addI (x : Reg) (c : Bool) (w : Word) : Effect s (.addI x) ((s.setV VF (flagByte c)).setI w).advance
  | cls : Effect s .cls (s.setFb Framebuffer.blank).advance
  | drw (x y : Reg) (n : Fin 16) (f : Framebuffer) (c : Bool) :
      Effect s (.drw x y n) ((s.setFb f).setV VF (flagByte c)).advance
  | ldDtVx (x : Reg) : Effect s (.ldDtVx x) (s.setDt (s.getV x)).advance
  | ldStVx (x : Reg) : Effect s (.ldStVx x) (s.setSt (s.getV x)).advance
  | ldVxK (x : Reg) : Effect s (.ldVxK x) ((s.setWaitReg x).setMode .awaitKey)
  | ldB (x : Reg) (m : Memory)
      (hm : s.writeBytes (s.dataAddr 0) (bcdDigits (s.getV x)) = some { s with mem := m }) :
      Effect s (.ldB x) (State.advance { s with mem := m })
  | dump (x : Reg) (m : Memory) (hm : s.writeBytes (s.dataAddr 0) (s.regsUpTo x) = some { s with mem := m }) :
      Effect s (.dump x) (State.advance { s with mem := m })
  | load (x : Reg) : Effect s (.load x) (s.setVFrom 0 (s.dataBytes (x.val + 1))).advance

/-- Every instruction answers a next state: the violation's, or the one its effect describes (R178, R179). -/
theorem exec_cases (i : Instr) (s : State) :
    exec i s = .next s.raiseIndexBounds ∨ ∃ t, exec i s = .next t ∧ Effect s i t := by
  cases i with
  | cls => exact .inr ⟨_, rfl, .cls⟩
  | ret =>
    refine .inr ?_
    cases h : s.topFrame with
    | some w => exact ⟨_, by simp [exec, execRet, h], .ret w h⟩
    | none => exact ⟨_, by simp [exec, execRet, h], .retEmpty h⟩
  | jp nnn => exact .inr ⟨_, rfl, .jp nnn⟩
  | call nnn => exact .inr ⟨_, rfl, .call nnn⟩
  | seImm x kk => exact .inr ⟨_, rfl, .skips _ _ trivial⟩
  | sneImm x kk => exact .inr ⟨_, rfl, .skips _ _ trivial⟩
  | seReg x y => exact .inr ⟨_, rfl, .skips _ _ trivial⟩
  | ldImm x kk => exact .inr ⟨_, rfl, .writesReg _ x _ rfl id⟩
  | addImm x kk => exact .inr ⟨_, rfl, .writesReg _ x _ rfl id⟩
  | ldReg x y => exact .inr ⟨_, rfl, .writesReg _ x _ rfl id⟩
  | orReg x y => exact .inr ⟨_, rfl, .writesReg _ x _ rfl id⟩
  | andReg x y => exact .inr ⟨_, rfl, .writesReg _ x _ rfl id⟩
  | xorReg x y => exact .inr ⟨_, rfl, .writesReg _ x _ rfl id⟩
  | addReg x y => exact .inr ⟨_, rfl, .writesRegAndFlag _ x _ _ rfl trivial⟩
  | subReg x y => exact .inr ⟨_, rfl, .writesRegAndFlag _ x _ _ rfl trivial⟩
  | shr x y => exact .inr ⟨_, rfl, .writesRegAndFlag _ x _ _ rfl trivial⟩
  | subn x y => exact .inr ⟨_, rfl, .writesRegAndFlag _ x _ _ rfl trivial⟩
  | shl x y => exact .inr ⟨_, rfl, .writesRegAndFlag _ x _ _ rfl trivial⟩
  | sneReg x y => exact .inr ⟨_, rfl, .skips _ _ trivial⟩
  | ldI nnn => exact .inr ⟨_, rfl, .ldI nnn⟩
  | jpV0 nnn => exact .inr ⟨_, rfl, .jpV0 nnn⟩
  | rnd x kk => exact .inr ⟨_, rfl, .rnd x kk⟩
  | drw x y n =>
    obtain ⟨-, h⟩ | ⟨-, h⟩ := execDrw_cases x y n s
    · exact .inr ⟨_, h, .drw x y n _ _⟩
    · exact .inl h
  | skp x =>
    by_cases hk : (s.getV x).toNat < 16
    · exact .inr ⟨_, by simp only [exec, execSkp, keyIndex_of_lt _ hk]; rfl, .skips _ _ trivial⟩
    · exact .inl (by simp only [exec, execSkp, keyIndex_of_ge _ (Nat.le_of_not_lt hk)])
  | sknp x =>
    by_cases hk : (s.getV x).toNat < 16
    · exact .inr ⟨_, by simp only [exec, execSknp, keyIndex_of_lt _ hk]; rfl, .skips _ _ trivial⟩
    · exact .inl (by simp only [exec, execSknp, keyIndex_of_ge _ (Nat.le_of_not_lt hk)])
  | ldVxDt x => exact .inr ⟨_, rfl, .writesReg _ x _ rfl id⟩
  | ldVxK x => exact .inr ⟨_, rfl, .ldVxK x⟩
  | ldDtVx x => exact .inr ⟨_, rfl, .ldDtVx x⟩
  | ldStVx x => exact .inr ⟨_, rfl, .ldStVx x⟩
  | addI x => exact .inr ⟨_, rfl, .addI x _ _⟩
  | ldF x => exact .inr ⟨_, rfl, .ldF x⟩
  | ldB x =>
    obtain ⟨-, u, hu, h⟩ | ⟨-, h⟩ := execLdB_cases x s
    · have hframe := s.writeBytes_frame u _ _ hu
      exact .inr ⟨_, h, by rw [hframe]; exact .ldB x u.mem (hframe ▸ hu)⟩
    · exact .inl h
  | dump x =>
    obtain ⟨-, u, hu, h⟩ | ⟨-, h⟩ := execDump_cases x s
    · have hframe := s.writeBytes_frame u _ _ hu
      exact .inr ⟨_, h, by rw [hframe]; exact .dump x u.mem (hframe ▸ hu)⟩
    · exact .inl h
  | load x =>
    obtain ⟨-, h⟩ | ⟨-, h⟩ := execLoad_cases x s
    · exact .inr ⟨_, h, .load x⟩
    · exact .inl h
  | sys nnn => exact .inr ⟨_, rfl, .sys nnn⟩

/-- The next state of an instruction is the violation's or the one its effect describes. -/
theorem effect_of_exec {i : Instr} {s t : State} (h : exec i s = .next t) :
    t = s.raiseIndexBounds ∨ Effect s i t := by
  obtain h' | ⟨u, h', he⟩ := exec_cases i s
  · rw [h'] at h; cases h; exact .inl rfl
  · rw [h'] at h; cases h; exact .inr he

/-- An instruction that ends outside FATAL has its effect. -/
theorem effect_of_exec_of_not_fatal {i : Instr} {s t : State} (h : exec i s = .next t) (hm : t.mode ≠ .fatal) :
    Effect s i t :=
  (effect_of_exec h).resolve_left fun e => hm (by rw [e]; rfl)

/-! ## Who writes which field (R25) -/

theorem flagByte_zero_or_one (c : Bool) : flagByte c = 0 ∨ flagByte c = 1 := by
  cases c
  · exact .inl rfl
  · exact .inr rfl

/-- A skip writes no flag (R11, R91). -/
theorem not_writesFlag_of_isSkip {i : Instr} (h : isSkip i) : ¬ writesFlag i := by
  cases i with
  | seImm | sneImm | seReg | sneReg | skp | sknp => exact id
  | _ => exact h.elim

/-- Completed writes to a canonical memory leave every byte outside their range. -/
theorem State.byteAt_of_writeBytes {s t : State} {a a' : Nat} {bs : List Byte} (h : s.writeBytes a bs = some t)
    (hwf : s.mem.wf (unlisted s.font) = true) (ha : ∀ j < bs.length, a' ≠ a + j) : t.byteAt a' = s.byteAt a' := by
  obtain ⟨-, -, hbyte⟩ := s.writeBytes_some t a bs h hwf
  rw [hbyte]
  by_cases hle : a ≤ a'
  · have hge : bs.length ≤ a' - a := Nat.le_of_not_lt fun hlt => ha _ hlt (by omega)
    simp [List.getElem?_eq_none hge]
  · simp [hle]

namespace Effect

variable {s t : State} {i : Instr}

theorem ireg_eq (h : Effect s i t) (h₁ : ∀ nnn, i ≠ .ldI nnn) (h₂ : ∀ x, i ≠ .addI x) (h₃ : ∀ x, i ≠ .ldF x) :
    t.ireg = s.ireg := by
  cases h with
  | ldI nnn => exact absurd rfl (h₁ nnn)
  | addI x => exact absurd rfl (h₂ x)
  | ldF x => exact absurd rfl (h₃ x)
  | _ => simp

theorem stack_eq (h : Effect s i t) (h₁ : ∀ nnn, i ≠ .call nnn) : t.stack = s.stack := by
  cases h with
  | call nnn => exact absurd rfl (h₁ nnn)
  | _ => simp

theorem sp_eq (h : Effect s i t) (h₁ : ∀ nnn, i ≠ .call nnn) (h₂ : i ≠ .ret) : t.sp = s.sp := by
  cases h with
  | call nnn => exact absurd rfl (h₁ nnn)
  | ret => exact absurd rfl h₂
  | _ => simp

theorem dt_eq (h : Effect s i t) (h₁ : ∀ x, i ≠ .ldDtVx x) : t.dt = s.dt := by
  cases h with
  | ldDtVx x => exact absurd rfl (h₁ x)
  | _ => simp

theorem st_eq (h : Effect s i t) (h₁ : ∀ x, i ≠ .ldStVx x) : t.st = s.st := by
  cases h with
  | ldStVx x => exact absurd rfl (h₁ x)
  | _ => simp

theorem fb_eq (h : Effect s i t) (h₁ : i ≠ .cls) (h₂ : ∀ x y n, i ≠ .drw x y n) : t.fb = s.fb := by
  cases h with
  | cls => exact absurd rfl h₁
  | drw x y n => exact absurd rfl (h₂ x y n)
  | _ => simp

theorem mode_waitReg_eq (h : Effect s i t) (h₁ : ∀ x, i ≠ .ldVxK x) : t.mode = s.mode ∧ t.waitReg = s.waitReg := by
  cases h with
  | ldVxK x => exact absurd rfl (h₁ x)
  | _ => simp

theorem keys_eq (h : Effect s i t) : t.keys = s.keys := by
  cases h <;> simp

theorem font_eq (h : Effect s i t) : t.font = s.font := by
  cases h <;> simp

theorem reports_eq (h : Effect s i t) : t.reports = s.reports := by
  cases h <;> simp

theorem events_eq (h : Effect s i t) : t.events = s.events := by
  cases h <;> simp

/-- A register is written as a destination, or as VF by a flag writer (R11). -/
theorem getV_eq (h : Effect s i t) {r : Reg} (hd : ¬ destination i r) (hf : r = VF → ¬ writesFlag i) :
    t.getV r = s.getV r := by
  cases h with
  | writesReg _ x b hx =>
    have hr : r ≠ x := fun e => hd (e ▸ hx)
    simp [State.getV_setV_of_ne, hr]
  | writesRegAndFlag _ x c b hx hw =>
    have hr : r ≠ x := fun e => hd (e ▸ hx)
    have hv : r ≠ VF := fun e => hf e hw
    simp [State.getV_setV_of_ne, hr, hv]
  | rnd x kk =>
    have hr : r ≠ x := hd
    simp [State.getV_setV_of_ne, hr]
  | addI x c w =>
    have hv : r ≠ VF := fun e => hf e trivial
    simp [State.getV_setV_of_ne, hv]
  | drw x y n f c =>
    have hv : r ≠ VF := fun e => hf e trivial
    simp [State.getV_setV_of_ne, hv]
  | load x =>
    have hr : x.val + 1 ≤ r.val := Nat.lt_of_not_le hd
    simp [State.getV_setVFrom, State.dataBytes, List.getElem?_eq_none, hr]
  | ldB => rfl
  | dump => rfl
  | _ => simp

/-- A flag writer that does not name VF as its destination leaves a flag there (R11). -/
theorem getV_VF_of_writesFlag (h : Effect s i t) (hw : writesFlag i) (hd : ¬ destination i VF) :
    ∃ c, t.getV VF = flagByte c := by
  cases h with
  | writesRegAndFlag _ x c b hx =>
    have hv : VF ≠ x := fun e => hd (e ▸ hx)
    exact ⟨c, by simp [State.getV_setV_of_ne, hv]⟩
  | addI x c w => exact ⟨c, by simp⟩
  | drw x y n f c => exact ⟨c, by simp⟩
  | skips _ c hi => exact absurd hw (not_writesFlag_of_isSkip hi)
  | writesReg _ _ _ _ hf => exact absurd hw hf
  | _ => exact hw.elim

/-- In a canonical memory a byte no instruction stores to reads as before (R46). -/
theorem byteAt_eq (h : Effect s i t) (hwf : s.mem.wf (unlisted s.font) = true) {a : Nat} (ha : ¬ stores i s a) :
    t.byteAt a = s.byteAt a := by
  cases h with
  | ldB x m hm =>
    rw [State.byteAt_advance]
    refine State.byteAt_of_writeBytes hm hwf fun j hj e => ha ⟨j, ?_, e⟩
    exact Nat.le_of_lt_succ hj
  | dump x m hm =>
    rw [State.byteAt_advance]
    refine State.byteAt_of_writeBytes hm hwf fun j hj e => ha ⟨j, ?_, e⟩
    rw [State.length_regsUpTo] at hj
    exact Nat.le_of_lt_succ hj
  | _ => simp

theorem mem_wf (h : Effect s i t) (hwf : s.mem.wf (unlisted s.font) = true) : t.mem.wf (unlisted t.font) = true := by
  cases h with
  | ldB x m hm => exact s.writeBytes_wf { s with mem := m } _ _ hm hwf
  | dump x m hm => exact s.writeBytes_wf { s with mem := m } _ _ hm hwf
  | _ => simpa using hwf

end Effect

/-- Settles O50: a register other than a destination changes only as VF under a flag writer, which leaves a flag. -/
theorem onlySevenInstructionsWriteVfAsFlag : Obligations.OnlySevenInstructionsWriteVfAsFlag := by
  intro i s t h hm hd
  have he := effect_of_exec_of_not_fatal h hm
  refine ⟨fun hf => he.getV_eq hd fun _ => hf, fun hw => ?_⟩
  obtain ⟨c, hc⟩ := he.getV_VF_of_writesFlag hw hd
  rw [hc]
  exact flagByte_zero_or_one c

/-- Settles O51, field by field from the instruction's effect. -/
theorem eachPieceOfStateHasOnlyItsWriters : Obligations.EachPieceOfStateHasOnlyItsWriters := by
  intro i s t h hm
  have he := effect_of_exec_of_not_fatal h hm
  exact ⟨he.ireg_eq, fun h₁ => ⟨he.stack_eq h₁, he.sp_eq h₁⟩, he.dt_eq, he.st_eq, he.fb_eq, he.mode_waitReg_eq,
    fun _ => he.getV_eq, fun hwf _ => he.byteAt_eq hwf, he.keys_eq, he.font_eq, he.reports_eq, he.events_eq⟩

/-! ## The invariant -/

/-- The invariant speaks of memory, FONT and the reports only. -/
theorem State.Inv.congr {s t : State} (h : s.Inv) (hm : t.mem = s.mem) (hf : t.font = s.font)
    (hr : t.reports = s.reports) : t.Inv := by
  unfold State.Inv
  rw [hm, hf, hr]
  exact h

/-- The free values of a violation are in canonical form (assumption 6). -/
theorem State.Inv.raiseIndexBounds {s : State} (h : s.Inv) : s.raiseIndexBounds.Inv :=
  ⟨s.raiseIndexBounds_wf, h.2⟩

theorem State.Inv.of_exec {i : Instr} {s t : State} (h : s.Inv) (he : exec i s = .next t) : t.Inv := by
  obtain rfl | he := effect_of_exec he
  · exact h.raiseIndexBounds
  · exact ⟨he.mem_wf h.1, he.reports_eq ▸ h.2⟩

/-- The unknown action reports a word only when it matches no table entry (R90). -/
theorem State.Inv.unknown {s : State} {w : Word} (h : s.Inv) (hw : resolve w = none) : (s.report w).advance.Inv :=
  ⟨h.1, List.forall_mem_cons.mpr ⟨hw, h.2⟩⟩

theorem State.Inv.of_execCycle {s t : State} (h : s.Inv) (ht : execCycle s = .next t) : t.Inv := by
  obtain ⟨-, he⟩ | ⟨w, i, -, -, he⟩ | ⟨w, -, hw, he⟩ := execCycle_cases s
  · cases he.symm.trans ht
    exact h.raiseIndexBounds
  · exact h.of_exec (he.symm.trans ht)
  · cases he.symm.trans ht
    exact h.unknown hw

theorem State.Inv.of_stepEvent {s t : State} (h : s.Inv) (ht : stepEvent s = .next t) : t.Inv := by
  by_cases hm : s.mode = .run
  · rw [stepEvent_run s hm] at ht
    exact State.Inv.of_execCycle (s := s.sealBoot) h ht
  · rw [stepEvent_of_ne_run s hm] at ht
    cases ht
    exact h

theorem State.Inv.of_writeBytes {s t : State} {a : Nat} {bs : List Byte} (h : s.Inv)
    (ht : s.writeBytes a bs = some t) : t.Inv :=
  ⟨s.writeBytes_wf t a bs ht h.1, by rw [congrArg State.reports (s.writeBytes_frame t a bs ht)]; exact h.2⟩

/-- A `Load` that answers a next state is ignored in FATAL or writes its bytes and ends boot (R179, R203). -/
theorem loadEvent_next {bytes : List Byte} {s t : State} (h : loadEvent bytes s = .next t) :
    t = s ∨ ∃ u, s.writeBytes Config.progBase bytes = some u ∧ t = u.sealBoot := by
  unfold loadEvent at h
  split at h
  · cases h; exact .inl rfl
  · cases h
  · split at h
    · split at h
      · cases h; exact .inr ⟨_, ‹_›, rfl⟩
      · cases h
    · cases h

/-! The host's other events write timers, keys, a register, pc and MODE, of which the invariant says nothing. -/

theorem State.Inv.of_frameTickEvent {s t : State} (h : s.Inv) (ht : frameTickEvent s = .next t) : t.Inv := by
  unfold frameTickEvent at ht
  split at ht <;> cases ht <;> exact h.congr rfl rfl rfl

theorem State.Inv.of_keyDownEvent {k : Key} {s t : State} (h : s.Inv) (ht : keyDownEvent k s = .next t) : t.Inv := by
  unfold keyDownEvent at ht
  split at ht <;> cases ht <;> exact h.congr rfl rfl rfl

theorem State.Inv.of_keyUpEvent {k : Key} {s t : State} (h : s.Inv) (ht : keyUpEvent k s = .next t) : t.Inv := by
  unfold keyUpEvent at ht
  split at ht <;> cases ht <;> exact h.congr rfl rfl rfl

theorem State.Inv.of_deliver {e : Event} {s t : State} (h : s.Inv) (ht : deliver e s = .next t) : t.Inv := by
  cases e with
  | reset =>
    cases ht
    exact ⟨Memory.wf_nil _, h.2⟩
  | load bytes =>
    obtain rfl | ⟨u, hu, rfl⟩ := loadEvent_next ht
    · exact h
    · exact (h.of_writeBytes hu).congr rfl rfl rfl
  | step => exact h.of_stepEvent ht
  | frameTick => exact h.of_frameTickEvent ht
  | keyDown k => exact h.of_keyDownEvent ht
  | keyUp k => exact h.of_keyUpEvent ht

/-- Settles O48: taking the event leaves the invariant, and so does its delivery. -/
theorem stepKeepsTheInvariant : Obligations.StepKeepsTheInvariant := by
  intro s t h ht
  have htake : s.takeEvent.Inv := h.congr rfl rfl rfl
  exact htake.of_deliver ht

/-- Settles O49: memory lists nothing and nothing is reported. -/
theorem resetHasTheInvariant : Obligations.ResetHasTheInvariant :=
  ⟨Memory.wf_nil _, List.forall_mem_nil _⟩

/-! ## Nothing depends on ST -/

/-- Two outcomes that differ in ST at most, where a next state in FATAL is compared by its mode only. -/
inductive AlikeButSt : Out → Out → Prop
  | next (t : State) (b : Byte) : AlikeButSt (.next t) (.next (t.setSt b))
  | fatal {t u : State} (ht : t.mode = .fatal) (hu : u.mode = .fatal) : AlikeButSt (.next t) (.next u)
  | fault (f : Fault) : AlikeButSt (.fault f) (.fault f)
  | refused (r : Refusal) : AlikeButSt (.refused r) (.refused r)

namespace AlikeButSt

variable {o : Out}

theorem of_next {t : State} (h : AlikeButSt (.next t) o) :
    ∃ t', o = .next t' ∧ t'.mode = t.mode ∧ (t.mode ≠ .fatal → ∃ b', t' = { t with st := b' }) := by
  cases h with
  | next _ b => exact ⟨_, rfl, rfl, fun _ => ⟨b, rfl⟩⟩
  | fatal ht hu => exact ⟨_, rfl, hu.trans ht.symm, fun hm => absurd ht hm⟩

theorem of_fault {f : Fault} (h : AlikeButSt (.fault f) o) : o = .fault f := by
  cases h
  rfl

theorem of_refused {r : Refusal} (h : AlikeButSt (.refused r) o) : o = .refused r := by
  cases h
  rfl

theorem violation (s u : State) : AlikeButSt (.next s.raiseIndexBounds) (.next u.raiseIndexBounds) :=
  .fatal rfl rfl

end AlikeButSt

section SetSt

variable (s : State) (b : Byte)

/-! What an operation does to a state with another ST: the same, and that ST stays. -/

theorem State.skipIf_setSt (c : Bool) : (s.setSt b).skipIf c = (s.skipIf c).setSt b := by
  cases c <;> rfl

theorem State.pushFrame_setSt (w : Word) : (s.setSt b).pushFrame w = (s.pushFrame w).setSt b := by
  unfold State.pushFrame
  by_cases h : s.sp.val < 16
  · rw [dif_pos h, dif_pos (show (s.setSt b).sp.val < 16 from h)]
    rfl
  · rw [dif_neg h, dif_neg (show ¬ (s.setSt b).sp.val < 16 from h)]

theorem State.afterRnd_setSt : (s.setSt b).afterRnd = s.afterRnd.setSt b := by
  simp only [State.afterRnd, State.setSt_rnd]
  split <;> rfl

theorem State.setVFrom_setSt (k : Nat) (bs : List Byte) : (s.setSt b).setVFrom k bs = (s.setVFrom k bs).setSt b := by
  induction bs generalizing s k with
  | nil => rfl
  | cons c bs ih => exact ih { s with v := s.v.setIfInBounds k c } (k + 1)

theorem State.readBytes_setSt (a n : Nat) : (s.setSt b).readBytes a n = s.readBytes a n := by
  rw [State.readBytes_eq, State.readBytes_eq]
  rfl

theorem State.writeBytes_setSt (a : Nat) (bs : List Byte) :
    (s.setSt b).writeBytes a bs = (s.writeBytes a bs).map (·.setSt b) := by
  induction bs generalizing s a with
  | nil => rfl
  | cons c bs ih =>
    by_cases ha : a < Config.memSize
    · simp only [State.writeBytes, State.memWrite, ha, if_true]
      exact ih (s.poke a c) (a + 1)
    · simp [State.writeBytes, State.memWrite, ha]

theorem State.topFrame_setSt : (s.setSt b).topFrame = s.topFrame := rfl

theorem State.dataAddr_setSt (k : Nat) : (s.setSt b).dataAddr k = s.dataAddr k := rfl

theorem State.regsUpTo_setSt (x : Reg) : (s.setSt b).regsUpTo x = s.regsUpTo x := rfl

theorem State.fetchWord_setSt : (s.setSt b).fetchWord = s.fetchWord := rfl

theorem AlikeButSt.skipIf (c : Bool) : AlikeButSt (.next (s.skipIf c)) (.next ((s.setSt b).skipIf c)) := by
  rw [State.skipIf_setSt]
  exact .next _ b

theorem exec_setSt (i : Instr) : AlikeButSt (exec i s) (exec i (s.setSt b)) := by
  cases i with
  | seImm x kk => exact .skipIf s b _
  | sneImm x kk => exact .skipIf s b _
  | seReg x y => exact .skipIf s b _
  | sneReg x y => exact .skipIf s b _
  | ldStVx x => exact .next _ (s.getV x)
  | ret =>
    simp only [exec, execRet, State.topFrame_setSt]
    cases s.topFrame with
    | some w => exact .next _ b
    | none => exact .next _ b
  | call nnn =>
    simp only [exec, execCall, State.pushFrame_setSt]
    exact .next _ b
  | rnd x kk =>
    simp only [exec, execRnd, State.afterRnd_setSt]
    exact .next _ b
  | skp x =>
    simp only [exec, execSkp, State.getV_setSt]
    cases keyIndex (s.getV x) with
    | some k => exact .skipIf s b _
    | none => exact .violation _ _
  | sknp x =>
    simp only [exec, execSknp, State.getV_setSt]
    cases keyIndex (s.getV x) with
    | some k => exact .skipIf s b _
    | none => exact .violation _ _
  | drw x y n =>
    simp only [exec, execDrw, State.readBytes_setSt, State.dataAddr_setSt]
    cases s.readBytes (s.dataAddr 0) n.val with
    | some bs => exact .next _ b
    | none => exact .violation _ _
  | load x =>
    simp only [exec, execLoad, State.readBytes_setSt, State.dataAddr_setSt, State.setVFrom_setSt]
    cases s.readBytes (s.dataAddr 0) (x.val + 1) with
    | some bs => exact .next _ b
    | none => exact .violation _ _
  | ldB x =>
    simp only [exec, execLdB, State.writeBytes_setSt, State.dataAddr_setSt, State.getV_setSt]
    cases s.writeBytes (s.dataAddr 0) (bcdDigits (s.getV x)) with
    | some u => exact .next _ b
    | none => exact .violation _ _
  | dump x =>
    simp only [exec, execDump, State.writeBytes_setSt, State.dataAddr_setSt, State.regsUpTo_setSt]
    cases s.writeBytes (s.dataAddr 0) (s.regsUpTo x) with
    | some u => exact .next _ b
    | none => exact .violation _ _
  | _ => exact .next _ b

theorem execCycle_setSt : AlikeButSt (execCycle s) (execCycle (s.setSt b)) := by
  simp only [execCycle, State.fetchWord_setSt]
  cases s.fetchWord with
  | none => exact .violation _ _
  | some w =>
    cases hw : resolve w with
    | some i => simpa only [hw] using exec_setSt s b i
    | none => simpa only [hw] using .next _ b

theorem stepEvent_setSt : AlikeButSt (stepEvent s) (stepEvent (s.setSt b)) := by
  by_cases hm : s.mode = .run
  · rw [stepEvent_run s hm, stepEvent_run (s.setSt b) hm]
    exact execCycle_setSt s.sealBoot b
  · rw [stepEvent_of_ne_run s hm, stepEvent_of_ne_run (s.setSt b) hm]
    exact .next s b

theorem loadEvent_setSt (bytes : List Byte) : AlikeButSt (loadEvent bytes s) (loadEvent bytes (s.setSt b)) := by
  simp only [loadEvent, State.setSt_mode, State.setSt_loadable, State.writeBytes_setSt]
  split
  · exact .next s b
  · exact .refused _
  · split
    · cases s.writeBytes Config.progBase bytes with
      | some t => exact .next _ b
      | none => exact .fault _
    · exact .fault _

theorem deliver_setSt (e : Event) : AlikeButSt (deliver e s) (deliver e (s.setSt b)) := by
  cases e with
  | reset => exact .next _ 0
  | load bytes => exact loadEvent_setSt s b bytes
  | step => exact stepEvent_setSt s b
  | frameTick =>
    simp only [deliver, frameTickEvent, State.setSt_mode]
    split
    · exact .next s b
    · exact .next _ (countDown b)
  | keyDown k =>
    simp only [deliver, keyDownEvent, State.setSt_mode]
    split <;> exact .next _ b
  | keyUp k =>
    simp only [deliver, keyUpEvent, State.setSt_mode]
    split <;> exact .next _ b

end SetSt

/-- Settles O53: the two machines take the same event, and its delivery differs in ST at most. -/
theorem nothingDependsOnTheSoundTimer : Obligations.NothingDependsOnTheSoundTimer := by
  intro s b
  have h : AlikeButSt (step s) (step { s with st := b }) := deliver_setSt s.takeEvent b s.nextEvent
  exact ⟨fun t ht => (ht ▸ h).of_next, fun f hf => (hf ▸ h).of_fault, fun r hr => (hr ▸ h).of_refused⟩

/-! ## Reset -/

theorem unlisted_of_lt (font : Vector Byte 80) (d : Fin 80) : unlisted font d.val = font[d] := by
  simp [unlisted, fontBase]

theorem unlisted_of_ge (font : Vector Byte 80) {a : Nat} (ha : 80 ≤ a) : unlisted font a = 0 := by
  simp [unlisted, fontBase, Nat.not_lt.mpr ha]

/-- Settles O1: `Reset` answers the reset state with FONT and the model's own fields kept (R200). -/
theorem resetRestoresEveryResetValue : Obligations.ResetRestoresEveryResetValue := by
  intro s
  refine ⟨_, rfl, rfl, ?_, ?_, rfl, rfl, ?_, rfl, rfl, ?_, rfl, rfl, unlisted_of_lt s.font,
    fun a => unlisted_of_ge s.font⟩
  · exact Framebuffer.pixel_blank
  · intro r; simp [State.getV, State.reset]
  · intro k; simp [State.reset]
  · intro k; simp [State.keyDown, State.reset]

end Sys2Proof.Machine
end

section
/-! PROOFS. The statements about memory and pc (spec/20_memory.md): one-byte accesses, the fetch, stored bytes that are
fetched, and the parity of pc and the stack. -/

namespace Sys2Proof.Machine

open Sys2Proof.Claims

/-! ## One-byte reads and writes (R42 to R44) -/

theorem State.memRead_of_lt (s : State) {a : Nat} (h : a < Config.memSize) : s.memRead a = some (s.byteAt a) :=
  if_pos h

theorem State.memRead_of_ge (s : State) {a : Nat} (h : Config.memSize ≤ a) : s.memRead a = none :=
  if_neg (Nat.not_lt.mpr h)

theorem State.memWrite_of_lt (s : State) {a : Nat} (b : Byte) (h : a < Config.memSize) :
    s.memWrite a b = some (s.poke a b) :=
  if_pos h

theorem State.memWrite_of_ge (s : State) {a : Nat} (b : Byte) (h : Config.memSize ≤ a) : s.memWrite a b = none :=
  if_neg (Nat.not_lt.mpr h)

/-- In a canonical memory a write leaves what every other address reads, the addresses above memory included. -/
theorem State.memRead_poke_of_ne {s : State} {a a' : Nat} (b : Byte) (hwf : s.mem.wf (unlisted s.font) = true)
    (h : a' ≠ a) : (s.poke a b).memRead a' = s.memRead a' := by
  rw [State.memRead, State.memRead, s.byteAt_poke a a' b hwf, if_neg h]

/-- Settles O31: below 4096 the write is a `poke`, which a canonical memory reads back; above, both accesses are out of
bounds. -/
theorem memoryWriteChangesItsCellOnly : Obligations.MemoryWriteChangesItsCellOnly := by
  intro s a b hwf
  refine ⟨fun ha => ?_, fun ha => ⟨s.memWrite_of_ge b ha, s.memRead_of_ge ha⟩⟩
  have hlt : a < Config.memSize := Nat.lt_succ_of_le ha
  refine ⟨s.poke a b, s.memWrite_of_lt b hlt, ?_, fun a' => State.memRead_poke_of_ne b hwf, rfl⟩
  rw [State.memRead_of_lt _ hlt, s.byteAt_poke a a b hwf, if_pos rfl]

/-! ## Stored bytes that are fetched (R54) -/

/-- A dump whose last address lies in memory stores V[j] at I + j for each j up to X (R128). -/
theorem byteAt_dataAddr_of_dump {x : Reg} {s t : State} (hwf : s.mem.wf (unlisted s.font) = true)
    (ha : s.dataAddr x.val < Config.memSize) (h : exec (.dump x) s = .next t) {j : Reg} (hj : j.val ≤ x.val) :
    t.byteAt (s.dataAddr j.val) = s.getV j := by
  obtain ⟨-, u, hu, he⟩ | ⟨hge, -⟩ := execDump_cases x s
  · cases he.symm.trans h
    obtain ⟨-, -, hbyte⟩ := s.writeBytes_some u _ _ hu hwf
    have hle : s.dataAddr 0 ≤ s.dataAddr j.val := Nat.add_le_add_left (Nat.zero_le _) _
    have hsub : s.dataAddr j.val - s.dataAddr 0 = j.val := Nat.add_sub_cancel_left s.ireg.toNat j.val
    rw [State.byteAt_advance, hbyte, if_pos hle, hsub, State.getElem?_regsUpTo, dif_pos hj, Option.getD_some]
  · exact absurd ha (Nat.not_lt.mpr hge)

/-- Settles O32: both fetched bytes are bytes the dump stored. -/
theorem nextFetchSeesDumpedBytes : Obligations.NextFetchSeesDumpedBytes := by
  intro x s t r q hwf ha h hrq hq hpc
  have hlast : s.dataAddr x.val < Config.memSize := Nat.lt_succ_of_le ha
  have hnext : s.dataAddr r.val + 1 = s.dataAddr q.val := by rw [← hrq]; rfl
  have hin : s.dataAddr q.val < Config.memSize := Nat.lt_of_le_of_lt (Nat.add_le_add_left hq _) hlast
  rw [t.fetchWord_eq, hpc, hnext, if_pos hin, byteAt_dataAddr_of_dump hwf hlast h (by omega),
    byteAt_dataAddr_of_dump hwf hlast h hq]

/-! ## Parity of pc and the stack (R45) -/

theorem even_toNat_add {w v : Word} (hw : w.toNat % 2 = 0) (hv : v.toNat % 2 = 0) : (w + v).toNat % 2 = 0 := by
  rw [BitVec.toNat_add]
  omega

@[simp] theorem toNat_addrOf (nnn : BitVec 12) : (addrOf nnn).toNat = nnn.toNat :=
  BitVec.toNat_setWidth_of_le (by decide)

/-- NNN + V0 is never reduced (R89). -/
@[simp] theorem toNat_addrPlus (nnn : BitVec 12) (b : Byte) : (addrPlus nnn b).toNat = nnn.toNat + b.toNat := by
  have hn := nnn.isLt
  have hb := b.isLt
  simp only [addrPlus, BitVec.toNat_add, BitVec.toNat_setWidth]
  omega

/-- The popped entry is one of the sixteen (R84). -/
theorem State.topFrame_mem {s : State} {w : Word} (h : s.topFrame = some w) : ∃ k : Fin 16, w = s.stack[k] := by
  unfold State.topFrame at h
  split at h
  · cases h
    exact ⟨⟨s.sp.val - 1, by omega⟩, rfl⟩
  · cases h

/-- After a push an entry is the pushed one or what it was (R83). -/
theorem State.pushFrame_entry (s : State) (w : Word) (k : Fin 16) :
    (s.pushFrame w).stack[k] = w ∨ (s.pushFrame w).stack[k] = s.stack[k] := by
  unfold State.pushFrame
  split
  · by_cases hk : s.sp.val = k.val
    · exact .inl (by simp [hk])
    · exact .inr (by simp [hk])
  · exact .inr rfl

namespace Effect

variable {s t : State} {i : Instr}

/-- The stack gains no entry but the pc of a call. -/
theorem stack_even (h : Effect s i t) (he : evenPc s) (k : Fin 16) : t.stack[k].toNat % 2 = 0 := by
  obtain ⟨hpc, hstack⟩ := he
  cases h with
  | call nnn =>
    rw [State.setPc_stack]
    obtain hk | hk := s.pushFrame_entry s.pc k
    · rw [hk]; exact hpc
    · rw [hk]; exact hstack k
  | _ => simpa using hstack k

/-- pc becomes an even target, an entry of the stack plus 2, or moves on by none, one or two words (R80). -/
theorem pc_even (h : Effect s i t) (he : evenPc s) (ht : targetEven i s) : t.pc.toNat % 2 = 0 := by
  obtain ⟨hpc, hstack⟩ := he
  have hnext : (s.pc + 2).toNat % 2 = 0 := even_toNat_add hpc rfl
  cases h with
  | jp nnn | call nnn | jpV0 nnn => simpa [targetEven] using ht
  | ret w hw =>
    obtain ⟨k, rfl⟩ := State.topFrame_mem hw
    exact even_toNat_add (hstack k) rfl
  | skips _ c =>
    cases c
    · exact hnext
    · exact even_toNat_add hpc rfl
  | ldVxK x => exact hpc
  | _ => simpa using hnext

end Effect

/-- Settles O52: the effect of an instruction keeps the stack even and, with its target even, pc. -/
theorem evenTargetsKeepPcEven : Obligations.EvenTargetsKeepPcEven := by
  intro i s t h hm he ht
  have heff := effect_of_exec_of_not_fatal h hm
  exact ⟨heff.pc_even he ht, heff.stack_even he⟩

/-! ## A fetch past memory (R44, R178) -/

/-- The fetch reads pc and pc + 1, so the last legal pc is 4094, whatever its parity. -/
theorem State.fetchWord_eq_none (s : State) : s.fetchWord = none ↔ 4094 < s.pc.toNat := by
  rw [s.fetchWord_eq]
  simp only [Config.memSize]
  split
  · simp; omega
  · simp; omega

theorem execCycle_of_fetchWord_none {s : State} (h : s.fetchWord = none) : execCycle s = .next s.raiseIndexBounds := by
  simp [execCycle, h]

/-- Settles O45: the execute cycle's fetch is the violation. -/
theorem fetchPastMemoryIsFatal : Obligations.FetchPastMemoryIsFatal := by
  intro s hstep hrun hpc
  have hfetch : s.takeEvent.sealBoot.fetchWord = none := (State.fetchWord_eq_none _).mpr hpc
  refine ⟨s.takeEvent.sealBoot.raiseIndexBounds, ?_, rfl⟩
  calc step s = stepEvent s.takeEvent := by rw [step_eq, hstep]; rfl
    _ = execCycle s.takeEvent.sealBoot := stepEvent_run s.takeEvent hrun
    _ = .next s.takeEvent.sealBoot.raiseIndexBounds := execCycle_of_fetchWord_none hfetch

end Sys2Proof.Machine
end

section
/-! PROOFS. The statements about the encoding (spec/30_encoding.md): the first matching entry decides, which words match
more than one entry or none, the two round trips, and the step that runs the decoded instruction. -/

namespace Sys2Proof

/-! ## The first matching entry (R65) -/

/-- The table search is the library's search for the first hit. -/
theorem resolveIn_eq_find? (rs : List Row) (w : Word) :
    resolveIn rs w = (rs.find? fun r => r.hits w).map fun r => r.build w := by
  induction rs with
  | nil => rfl
  | cons r rs ih =>
    rw [resolveIn, List.find?_cons]
    cases r.hits w
    · exact ih
    · rfl

theorem resolve_of_find? {w : Word} {r : Row} (h : instrTable.find? (fun r => r.hits w) = some r) :
    resolve w = some (r.build w) := by
  rw [resolve, resolveIn_eq_find?, h, Option.map_some]

theorem resolve_eq_none_iff (w : Word) : resolve w = none ↔ ∀ r ∈ instrTable, ¬ r.hits w = true := by
  rw [resolve, resolveIn_eq_find?, Option.map_eq_none_iff, List.find?_eq_none]

/-- A word that decodes is decoded by an entry that matches it. -/
theorem exists_hit_of_resolve {w : Word} {i : Instr} (h : resolve w = some i) :
    ∃ r ∈ instrTable, r.hits w = true ∧ r.build w = i := by
  rw [resolve, resolveIn_eq_find?, Option.map_eq_some_iff] at h
  obtain ⟨r, hfind, hbuild⟩ := h
  exact ⟨r, List.mem_of_find?_eq_some hfind, List.find?_some (p := fun r : Row => r.hits w) hfind, hbuild⟩

/-- Settles O2: the search of the table is a search for the first hit. -/
theorem resolveTakesFirstMatchingRow : Obligations.ResolveTakesFirstMatchingRow := by
  intro w
  refine ⟨fun k hk hhit hearlier => resolve_of_find? ?_, fun hmiss => ?_⟩
  · refine List.find?_eq_some_iff_getElem.mpr ⟨hhit, k, hk, rfl, fun j hj => ?_⟩
    rw [hearlier j hj, Bool.not_false]
  · exact (resolve_eq_none_iff w).mpr fun r hr => Bool.eq_false_iff.mp (hmiss r hr)

theorem Row.hits_iff {r : Row} {w : Word} : r.hits w = true ↔ w &&& r.mask = r.pattern := beq_iff_eq

/-! ## Words that match two entries (R67) -/

/-- Two entries that match one word agree on the digits both fix. -/
theorem Row.pattern_agree_of_hits {r r' : Row} {w : Word} (h : r.hits w = true) (h' : r'.hits w = true) :
    r.pattern &&& r'.mask = r'.pattern &&& r.mask := by
  rw [← Row.hits_iff.mp h, ← Row.hits_iff.mp h', BitVec.and_assoc, BitVec.and_assoc, BitVec.and_comm r.mask]

/-- An entry that agrees with a later one on the digits both fix is clear-screen or return. -/
theorem instrTable_pairwise : instrTable.Pairwise fun r r' =>
    r.pattern &&& r'.mask = r'.pattern &&& r.mask → r.mask = 0xFFFF ∧ (r.pattern = 0x00E0 ∨ r.pattern = 0x00EE) := by
  decide

theorem Row.eq_pattern_of_hits {r : Row} {w : Word} (hm : r.mask = 0xFFFF) (h : r.hits w = true) : w = r.pattern :=
  calc w = w &&& 0xFFFF := BitVec.and_allOnes.symm
    _ = r.pattern := by rw [← hm]; exact Row.hits_iff.mp h

/-- The entries that match a word, in table order. -/
def matchingRows (w : Word) : List Row := instrTable.filter fun r => r.hits w

theorem mem_matchingRows {w : Word} {r : Row} : r ∈ matchingRows w ↔ r ∈ instrTable ∧ r.hits w = true :=
  List.mem_filter

theorem matchingRows_cls : matchingRows 0x00E0 = [rowZ 0x00E0 .cls, rowA 0x0000 .sys] := rfl

theorem matchingRows_ret : matchingRows 0x00EE = [rowZ 0x00EE .ret, rowA 0x0000 .sys] := rfl

theorem eq_cls_or_ret_of_two_matches {w : Word} {r r' : Row} {rs : List Row} (h : matchingRows w = r :: r' :: rs) :
    w = 0x00E0 ∨ w = 0x00EE := by
  have hpair := instrTable_pairwise.filter fun r => r.hits w
  rw [← matchingRows, h] at hpair
  have hr : r.hits w = true := (mem_matchingRows.mp (h ▸ List.mem_cons_self)).2
  have hr' : r'.hits w = true := (mem_matchingRows.mp (h ▸ List.mem_cons_of_mem _ List.mem_cons_self)).2
  obtain ⟨hmask, hpattern⟩ := List.rel_of_pairwise_cons hpair List.mem_cons_self (Row.pattern_agree_of_hits hr hr')
  rwa [Row.eq_pattern_of_hits hmask hr]

/-- Settles O7: two matching entries agree where both fix a digit, and the table has such pairs for two words only. -/
theorem onlyTwoWordsMatchTwoRows : Obligations.OnlyTwoWordsMatchTwoRows := by
  intro w
  change 1 < (matchingRows w).length ↔ _
  constructor
  · intro hlen
    match h : matchingRows w with
    | [] | [_] => simp [h] at hlen
    | r :: r' :: rs => exact eq_cls_or_ret_of_two_matches h
  · rintro (rfl | rfl)
    · rw [matchingRows_cls]; decide
    · rw [matchingRows_ret]; decide

/-! ## Decoding an encoded instruction -/

/-- The word of every instruction matches an entry that builds the instruction back (R66). -/
theorem exists_row_builds : (i : Instr) → Laws.RowMatch.Statement i
  | .cls => Laws.RowMatch.cls
  | .ret => Laws.RowMatch.ret
  | .jp nnn => Laws.RowMatch.jp nnn
  | .call nnn => Laws.RowMatch.call nnn
  | .seImm x kk => Laws.RowMatch.seImm x kk
  | .sneImm x kk => Laws.RowMatch.sneImm x kk
  | .seReg x y => Laws.RowMatch.seReg x y
  | .ldImm x kk => Laws.RowMatch.ldImm x kk
  | .addImm x kk => Laws.RowMatch.addImm x kk
  | .ldReg x y => Laws.RowMatch.ldReg x y
  | .orReg x y => Laws.RowMatch.orReg x y
  | .andReg x y => Laws.RowMatch.andReg x y
  | .xorReg x y => Laws.RowMatch.xorReg x y
  | .addReg x y => Laws.RowMatch.addReg x y
  | .subReg x y => Laws.RowMatch.subReg x y
  | .shr x y => Laws.RowMatch.shr x y
  | .subn x y => Laws.RowMatch.subn x y
  | .shl x y => Laws.RowMatch.shl x y
  | .sneReg x y => Laws.RowMatch.sneReg x y
  | .ldI nnn => Laws.RowMatch.ldI nnn
  | .jpV0 nnn => Laws.RowMatch.jpV0 nnn
  | .rnd x kk => Laws.RowMatch.rnd x kk
  | .drw x y n => Laws.RowMatch.drw x y n
  | .skp x => Laws.RowMatch.skp x
  | .sknp x => Laws.RowMatch.sknp x
  | .ldVxDt x => Laws.RowMatch.ldVxDt x
  | .ldVxK x => Laws.RowMatch.ldVxK x
  | .ldDtVx x => Laws.RowMatch.ldDtVx x
  | .ldStVx x => Laws.RowMatch.ldStVx x
  | .addI x => Laws.RowMatch.addI x
  | .ldF x => Laws.RowMatch.ldF x
  | .ldB x => Laws.RowMatch.ldB x
  | .dump x => Laws.RowMatch.dump x
  | .load x => Laws.RowMatch.load x
  | .sys nnn => Laws.RowMatch.sys nnn

/-- A well-formed instruction built by a matching entry is the one the search finds: the second entry that matches
0x00E0 or 0x00EE builds no instruction (R67). -/
theorem resolve_of_mem_matchingRows {w : Word} {r : Row} (hr : r ∈ matchingRows w) (hwf : (r.build w).wf = true) :
    resolve w = some (r.build w) := by
  match h : matchingRows w with
  | [] => simp [h] at hr
  | [r'] =>
    obtain rfl : r = r' := by simpa [h] using hr
    exact resolve_of_find? (List.head?_filter.symm.trans (congrArg List.head? h))
  | _ :: _ :: _ =>
    obtain rfl | rfl := eq_cls_or_ret_of_two_matches h
    · rw [matchingRows_cls, List.mem_pair] at hr
      obtain rfl | rfl := hr
      · rfl
      · exact absurd hwf (by decide)
    · rw [matchingRows_ret, List.mem_pair] at hr
      obtain rfl | rfl := hr
      · rfl
      · exact absurd hwf (by decide)

theorem resolve_encodeWord {i : Instr} (hi : i.wf = true) : resolve (encodeWord i) = some i := by
  obtain ⟨r, hmem, hhit, hbuild⟩ := exists_row_builds i
  rw [← hbuild] at hi
  exact (resolve_of_mem_matchingRows (mem_matchingRows.mpr ⟨hmem, hhit⟩) hi).trans (congrArg some hbuild)

theorem decode_bytesOfWord_append {w : Word} {i : Instr} (h : resolve w = some i) (rest : List Byte) :
    decode (bytesOfWord w ++ rest) = .ok (i, rest) := by
  have happend : bytesOfWord w ++ rest = w.extractLsb' 8 8 :: w.extractLsb' 0 8 :: rest := rfl
  rw [happend, decode_two, wordOfBytes_bytesOfWord, h]

/-- Settles O4: the encoded word resolves to its instruction. -/
theorem decodeOfEncodeIsTheInstruction : Obligations.DecodeOfEncodeIsTheInstruction := fun _ rest hi =>
  decode_bytesOfWord_append (resolve_encodeWord hi) rest

/-! ## Encoding a decoded word -/

theorem packA_zero_inj {op op' : BitVec 4} (h : packA op 0 = packA op' 0) : op = op' :=
  (BitVec.append_left_inj _).mp h

theorem packXYN_zero_inj {op op' : BitVec 4} {n n' : Fin 16} (h : packXYN op 0 0 n = packXYN op' 0 0 n') :
    op = op' ∧ n = n' := by
  obtain rfl : n = n' := by simpa using congrArg fieldN h
  exact ⟨(BitVec.append_left_inj _).mp ((BitVec.append_left_inj _).mp ((BitVec.append_left_inj _).mp h)), rfl⟩

theorem packXK_zero_inj {op op' : BitVec 4} {kk kk' : Byte} (h : packXK op 0 kk = packXK op' 0 kk') :
    op = op' ∧ kk = kk' := by
  obtain rfl : kk = kk' := by simpa using congrArg fieldKK h
  exact ⟨(BitVec.append_left_inj _).mp ((BitVec.append_left_inj _).mp h), rfl⟩

/-- The entry drops no bit: what it builds from a word it matches encodes to that word. -/
def Row.Encodes (r : Row) : Prop := ∀ w, r.hits w = true → encodeWord (r.build w) = w

theorem rowZ_encodes {p : Word} {i : Instr} (hi : encodeWord i = p) : (rowZ p i).Encodes := by
  intro w h
  rw [(rowZ_hits p i w).mp h]
  exact hi

theorem rowA_encodes {p : Word} {op : BitVec 4} {f : BitVec 12 → Instr}
    (hf : ∀ nnn, encodeWord (f nnn) = packA op nnn) (hp : p = packA op 0) : (rowA p f).Encodes := by
  intro w h
  obtain ⟨op', nnn, rfl⟩ := exists_packA w
  have hfix : packA op' 0 = packA op 0 := (packA_mask op' nnn).symm.trans ((Row.hits_iff.mp h).trans hp)
  obtain rfl := packA_zero_inj hfix
  simp only [rowA, hf, fieldNNN_packA]

theorem rowXK_encodes {p : Word} {op : BitVec 4} {f : Reg → Byte → Instr}
    (hf : ∀ x kk, encodeWord (f x kk) = packXK op x kk) (hp : p = packA op 0) : (rowXK p f).Encodes := by
  intro w h
  obtain ⟨op', x, kk, rfl⟩ := exists_packXK w
  have hfix : packA op' 0 = packA op 0 := (packXK_mask op' x kk).symm.trans ((Row.hits_iff.mp h).trans hp)
  obtain rfl := packA_zero_inj hfix
  simp only [rowXK, hf, fieldX_packXK, fieldKK_packXK]

theorem rowXYN_encodes {p : Word} {op : BitVec 4} {f : Reg → Reg → Fin 16 → Instr}
    (hf : ∀ x y n, encodeWord (f x y n) = packXYN op x y n) (hp : p = packA op 0) : (rowXYN p f).Encodes := by
  intro w h
  obtain ⟨op', x, y, n, rfl⟩ := exists_packXYN w
  have hfix : packA op' 0 = packA op 0 := (packXYN_mask op' x y n).symm.trans ((Row.hits_iff.mp h).trans hp)
  obtain rfl := packA_zero_inj hfix
  simp only [rowXYN, hf, fieldX_packXYN, fieldY_packXYN, fieldN_packXYN]

theorem rowXY_encodes {p : Word} {op : BitVec 4} {n : Fin 16} {f : Reg → Reg → Instr}
    (hf : ∀ x y, encodeWord (f x y) = packXYN op x y n) (hp : p = packXYN op 0 0 n) : (rowXY p f).Encodes := by
  intro w h
  obtain ⟨op', x, y, n', rfl⟩ := exists_packXYN w
  have hfix : packXYN op' 0 0 n' = packXYN op 0 0 n :=
    (packXYN_mask_last op' x y n').symm.trans ((Row.hits_iff.mp h).trans hp)
  obtain ⟨rfl, rfl⟩ := packXYN_zero_inj hfix
  simp only [rowXY, hf, fieldX_packXYN, fieldY_packXYN]

theorem rowXF_encodes {p : Word} {op : BitVec 4} {kk : Byte} {f : Reg → Instr}
    (hf : ∀ x, encodeWord (f x) = packXK op x kk) (hp : p = packXK op 0 kk) : (rowXF p f).Encodes := by
  intro w h
  obtain ⟨op', x, kk', rfl⟩ := exists_packXK w
  have hfix : packXK op' 0 kk' = packXK op 0 kk :=
    (packXK_mask_byte op' x kk').symm.trans ((Row.hits_iff.mp h).trans hp)
  obtain ⟨rfl, rfl⟩ := packXK_zero_inj hfix
  simp only [rowXF, hf, fieldX_packXK]

theorem rows1_encode : ∀ r ∈ rows1, r.Encodes := by
  simp only [rows1, List.forall_mem_cons]
  exact ⟨rowZ_encodes rfl, rowZ_encodes rfl, rowA_encodes (fun _ => rfl) rfl, rowA_encodes (fun _ => rfl) rfl,
    rowXK_encodes (fun _ _ => rfl) rfl, rowXK_encodes (fun _ _ => rfl) rfl, rowXY_encodes (fun _ _ => rfl) rfl,
    rowXK_encodes (fun _ _ => rfl) rfl, rowXK_encodes (fun _ _ => rfl) rfl, List.forall_mem_nil _⟩

theorem rows10_encode : ∀ r ∈ rows10, r.Encodes := by
  simp only [rows10, List.forall_mem_cons]
  exact ⟨rowXY_encodes (fun _ _ => rfl) rfl, rowXY_encodes (fun _ _ => rfl) rfl, rowXY_encodes (fun _ _ => rfl) rfl,
    rowXY_encodes (fun _ _ => rfl) rfl, rowXY_encodes (fun _ _ => rfl) rfl, rowXY_encodes (fun _ _ => rfl) rfl,
    rowXY_encodes (fun _ _ => rfl) rfl, rowXY_encodes (fun _ _ => rfl) rfl, rowXY_encodes (fun _ _ => rfl) rfl,
    List.forall_mem_nil _⟩

theorem rows19_encode : ∀ r ∈ rows19, r.Encodes := by
  simp only [rows19, List.forall_mem_cons]
  exact ⟨rowXY_encodes (fun _ _ => rfl) rfl, rowA_encodes (fun _ => rfl) rfl, rowA_encodes (fun _ => rfl) rfl,
    rowXK_encodes (fun _ _ => rfl) rfl, rowXYN_encodes (fun _ _ _ => rfl) rfl, rowXF_encodes (fun _ => rfl) rfl,
    rowXF_encodes (fun _ => rfl) rfl, List.forall_mem_nil _⟩

theorem rows26_encode : ∀ r ∈ rows26, r.Encodes := by
  simp only [rows26, List.forall_mem_cons]
  exact ⟨rowXF_encodes (fun _ => rfl) rfl, rowXF_encodes (fun _ => rfl) rfl, rowXF_encodes (fun _ => rfl) rfl,
    rowXF_encodes (fun _ => rfl) rfl, rowXF_encodes (fun _ => rfl) rfl, rowXF_encodes (fun _ => rfl) rfl,
    rowXF_encodes (fun _ => rfl) rfl, rowXF_encodes (fun _ => rfl) rfl, rowXF_encodes (fun _ => rfl) rfl,
    rowA_encodes (fun _ => rfl) rfl, List.forall_mem_nil _⟩

theorem instrTable_encodes : ∀ r ∈ instrTable, r.Encodes := by
  simp only [instrTable, List.forall_mem_append]
  exact ⟨⟨⟨rows1_encode, rows10_encode⟩, rows19_encode⟩, rows26_encode⟩

theorem encodeWord_of_resolve {w : Word} {i : Instr} (h : resolve w = some i) : encodeWord i = w := by
  obtain ⟨r, hmem, hhit, rfl⟩ := exists_hit_of_resolve h
  exact instrTable_encodes r hmem w hhit

/-- `SYS` is the one instruction with terms that do not exist (R67, R73). -/
theorem not_wf_iff (i : Instr) : i.wf = false ↔ i = .sys 0x0E0 ∨ i = .sys 0x0EE := by
  cases i with
  | sys nnn => simp only [Instr.wf, Bool.and_eq_false_iff, bne_eq_false_iff_eq, Instr.sys.injEq]
  | _ => simp [Instr.wf]

/-- The words of the two `SYS` terms that do not exist decode to clear-screen and return (R67). -/
theorem wf_of_resolve {w : Word} {i : Instr} (h : resolve w = some i) : i.wf = true := by
  by_contra hwf
  obtain rfl := encodeWord_of_resolve h
  obtain rfl | rfl := (not_wf_iff i).mp (Bool.eq_false_of_not_eq_true hwf)
  · exact absurd h (by decide)
  · exact absurd h (by decide)

/-- Settles O5: what an entry builds encodes to the word it matched, and the entries for clear-screen and return come before
the two `SYS` that do not exist. -/
theorem encodeOfDecodeIsTheWord : Obligations.EncodeOfDecodeIsTheWord := fun _ _ h =>
  ⟨wf_of_resolve h, encodeWord_of_resolve h⟩

/-! ## The decode misses (R70) -/

theorem rows1_miss (w : Word) : (∀ r ∈ rows1, ¬ r.hits w = true) ↔
    w.toNat ≠ 0x00E0 ∧ w.toNat ≠ 0x00EE ∧ w.toNat / 4096 ∉ [1, 2, 3, 4, 6, 7] ∧
      ¬ (w.toNat / 4096 = 5 ∧ w.toNat % 16 = 0) := by
  simp (disch := decide) [rows1, rowZ_hits, rowA_hits, rowXK_hits, rowXY_hits, ← BitVec.toNat_inj, -Bool.not_eq_true]
  omega

theorem rows10_miss (w : Word) : (∀ r ∈ rows10, ¬ r.hits w = true) ↔
    ¬ (w.toNat / 4096 = 8 ∧ w.toNat % 16 ∈ [0, 1, 2, 3, 4, 5, 6, 7, 0xE]) := by
  simp (disch := decide) [rows10, rowXY_hits, -Bool.not_eq_true]
  omega

theorem rows19_miss (w : Word) : (∀ r ∈ rows19, ¬ r.hits w = true) ↔
    ¬ (w.toNat / 4096 = 9 ∧ w.toNat % 16 = 0) ∧ w.toNat / 4096 ∉ [0xA, 0xB, 0xC, 0xD] ∧
      ¬ (w.toNat / 4096 = 0xE ∧ w.toNat % 256 ∈ [0x9E, 0xA1]) := by
  simp (disch := decide) [rows19, rowXY_hits, rowA_hits, rowXK_hits, rowXYN_hits, rowXF_hits, -Bool.not_eq_true]
  omega

theorem rows26_miss (w : Word) : (∀ r ∈ rows26, ¬ r.hits w = true) ↔
    ¬ (w.toNat / 4096 = 0xF ∧ w.toNat % 256 ∈ [0x07, 0x0A, 0x15, 0x18, 0x1E, 0x29, 0x33, 0x55, 0x65]) ∧
      w.toNat / 4096 ≠ 0 := by
  simp (disch := decide) [rows26, rowXF_hits, rowA_hits, -Bool.not_eq_true]
  omega

/-- Settles O6: the leading digit says which chunk of the table has entries for the word. `SYS` takes every word with
leading digit 0, and the spec lists the other digits with a miss, 8 by the last digits that no entry has. -/
theorem decodeMissWordsAreExactlyTheListed : Obligations.DecodeMissWordsAreExactlyTheListed := by
  intro w
  rw [resolve_eq_none_iff, instrTable]
  simp only [List.forall_mem_append, rows1_miss, rows10_miss, rows19_miss, rows26_miss]
  have hdigit : w.toNat / 4096 < 16 := Nat.div_lt_of_lt_mul w.isLt
  have hlast : w.toNat % 16 < 16 := Nat.mod_lt _ (by decide)
  by_cases hsys : w.toNat / 4096 = 0
  · simp [hsys]
  · have hcls : w.toNat ≠ 0x00E0 := by omega
    have hret : w.toNat ≠ 0x00EE := by omega
    generalize w.toNat / 4096 = digit at *
    interval_cases digit <;> simp [hcls, hret]
    omega

end Sys2Proof

namespace Sys2Proof.Machine

open Sys2Proof.Claims

/-! ## The step that runs the decoded instruction (R64) -/

theorem step_of_fetchWord {s : State} {w : Word} {i : Instr} (hstep : s.nextEvent = .step) (hrun : s.mode = .run)
    (hfetch : s.fetchWord = some w) (hi : resolve w = some i) : step s = exec i (executing s) := by
  have hfetch' : (executing s).fetchWord = some w := hfetch
  calc step s = stepEvent s.takeEvent := by rw [step_eq, hstep]; rfl
    _ = execCycle (executing s) := stepEvent_run s.takeEvent hrun
    _ = exec i (executing s) := by simp [execCycle, hfetch', hi]

theorem resolve_of_decode_two {first second : Byte} {i : Instr} {rest : List Byte}
    (h : decode (first :: second :: rest) = .ok (i, rest)) : resolve (wordOfBytes first second) = some i := by
  rw [decode_two] at h
  cases hr : resolve (wordOfBytes first second) with
  | none => simp [hr] at h
  | some j => simpa [hr] using h

/-- Settles O8: the fetched word is the word of the two bytes. -/
theorem stepRunsTheDecodedInstruction : Obligations.StepRunsTheDecodedInstruction := by
  intro s first second i hstep hrun hpc hfirst hsecond hdecode
  refine step_of_fetchWord hstep hrun ?_ (resolve_of_decode_two hdecode)
  rw [s.fetchWord_eq, hfirst, hsecond, if_pos (Nat.lt_succ_of_le hpc)]

/-! ## The word laid at the fetch address -/

theorem State.fetchSlot_lt (s : State) : s.fetchSlot.toNat + 1 < Config.memSize := by
  unfold State.fetchSlot
  split
  · assumption
  · decide

theorem State.withFetchWord_toNat (s : State) (w : Word) : s.withFetchWord 16 w.toNat = s.placeWord w := by
  rw [State.withFetchWord, Nat.mod_eq_of_lt w.isLt, BitVec.ofNat_toNat, BitVec.setWidth_eq]

@[simp] theorem State.placeWord_mode (s : State) (w : Word) : (s.placeWord w).mode = .run := rfl

@[simp] theorem State.placeWord_pc (s : State) (w : Word) : (s.placeWord w).pc = s.fetchSlot := rfl

theorem State.nextEvent_placeWord (s : State) (w : Word) : (s.placeWord w).nextEvent = .step := by
  by_cases h : s.nextEvent = .step
  · have : (s.placeWord w).events = s.events := if_pos h
    rw [State.nextEvent, this]; exact h
  · exact State.nextEvent_cons _ .step s.events (if_neg h)

theorem State.byteAt_placeWord (s : State) (w : Word) (hwf : s.mem.wf (unlisted s.font) = true) (a : Nat) :
    (s.placeWord w).byteAt a =
      if a = s.fetchSlot.toNat + 1 then w.extractLsb' 0 8
      else if a = s.fetchSlot.toNat then w.extractLsb' 8 8 else s.byteAt a := by
  have hlt : s.fetchSlot.toNat < Config.memSize := Nat.lt_of_succ_lt s.fetchSlot_lt
  have hwf' := Memory.wf_write _ _ _ (w.extractLsb' 8 8) hwf hlt
  have hmem : (s.placeWord w).byteAt a =
    ((s.poke s.fetchSlot.toNat (w.extractLsb' 8 8)).poke (s.fetchSlot.toNat + 1) (w.extractLsb' 0 8)).byteAt a := rfl
  rw [hmem, State.byteAt_poke _ _ _ _ hwf', State.byteAt_poke _ _ _ _ hwf]

theorem State.fetchWord_placeWord (s : State) (w : Word) (hwf : s.mem.wf (unlisted s.font) = true) :
    (s.placeWord w).fetchWord = some w := by
  rw [State.fetchWord_eq, State.placeWord_pc, if_pos s.fetchSlot_lt, s.byteAt_placeWord w hwf, s.byteAt_placeWord w hwf,
    if_neg (by omega), if_pos rfl, if_pos rfl, wordOfBytes_bytesOfWord]

/-- Settles O10: the next step is a `Step` in RUN that fetches the placed word. -/
theorem placedWordIsTheNextInstruction : Obligations.PlacedWordIsTheNextInstruction := by
  intro s w i hwf hi
  rw [s.withFetchWord_toNat]
  exact step_of_fetchWord (s.nextEvent_placeWord w) (s.placeWord_mode w) (s.fetchWord_placeWord w hwf) hi

end Sys2Proof.Machine
end

section
/-! PROOFS. The statements about control flow (spec/40_control_flow.md): skips, jumps, call and return, the decode miss,
that only a `Load` can stop the machine, and where pc stands after an instruction. -/

namespace Sys2Proof.Machine

open Sys2Proof.Claims

/-! ## What writes pc only (R80) -/

theorem onlyPc_setPc (s : State) (w : Word) : onlyPc s (s.setPc w) :=
  ⟨rfl, s.byteAt_setPc w⟩

/-- The flag a skip is given decides between one word and two. -/
theorem skipsWhen_skipIf (s : State) {p : Prop} {c : Bool} (h : c = true ↔ p) : skipsWhen p s (s.skipIf c) := by
  refine ⟨fun hp => ?_, fun hp => ?_, ?_⟩
  · rw [State.skipIf_pc, if_pos (h.mpr hp)]
  · rw [State.skipIf_pc, if_neg (mt h.mp hp)]
  · rw [State.skipIf_eq]
    exact onlyPc_setPc s _

/-- Settles O18: each value skip is `skipIf` with the Boolean form of its comparison. -/
theorem valueSkipsAdvanceByOneOrTwoWords : Obligations.ValueSkipsAdvanceByOneOrTwoWords := by
  intro x y kk s
  exact ⟨⟨_, rfl, skipsWhen_skipIf s beq_iff_eq⟩, ⟨_, rfl, skipsWhen_skipIf s bne_iff_ne⟩,
    ⟨_, rfl, skipsWhen_skipIf s beq_iff_eq⟩, ⟨_, rfl, skipsWhen_skipIf s bne_iff_ne⟩,
    packXK_toNat 3 x kk, packXK_toNat 4 x kk, packXYN_toNat 5 x y 0, packXYN_toNat 9 x y 0⟩

/-- Settles O19: both targets are below 2^16, so neither is reduced. -/
theorem jumpsSetPcToTheirTarget : Obligations.JumpsSetPcToTheirTarget := by
  intro nnn s
  exact ⟨⟨_, rfl, toNat_addrOf nnn, onlyPc_setPc s _⟩, ⟨_, rfl, toNat_addrPlus nnn _, onlyPc_setPc s _⟩,
    packA_toNat 1 nnn, packA_toNat 0xB nnn⟩

/-- Settles O20: `SYS` is the plain advance. -/
theorem machineRoutineCallOnlyAdvances : Obligations.MachineRoutineCallOnlyAdvances := fun _ s =>
  ⟨s.advance, rfl, BitVec.toNat_add s.pc 2, onlyPc_setPc s _⟩

/-! ## Call and return (R83, R84) -/

theorem State.pushFrame_sp_of_lt (s : State) (w : Word) (h : s.sp.val < 16) :
    (s.pushFrame w).sp.val = s.sp.val + 1 := by
  simp [State.pushFrame, h]

theorem State.pushFrame_stack_of_eq (s : State) (w : Word) {k : Fin 16} (h : s.sp.val = k.val) :
    (s.pushFrame w).stack[k] = w := by
  simp [State.pushFrame, h]

/-- A push writes no entry but the one at SP, and none when all sixteen are live. -/
theorem State.pushFrame_stack_of_ne (s : State) (w : Word) {k : Fin 16} (h : s.sp.val ≠ k.val) :
    (s.pushFrame w).stack[k] = s.stack[k] := by
  unfold State.pushFrame
  split
  · simp [h]
  · rfl

theorem State.pushFrame_of_full (s : State) (w : Word) (h : s.sp.val = 16) : s.pushFrame w = s := by
  simp [State.pushFrame, h]

theorem State.topFrame_of_sp (s : State) {k : Fin 16} (h : s.sp.val = k.val + 1) : s.topFrame = some s.stack[k] := by
  simp [State.topFrame, h]

theorem State.topFrame_of_empty (s : State) (h : s.sp.val = 0) : s.topFrame = none := by
  simp [State.topFrame, h]

/-- A return writes pc and SP only, and is a pop or, on an empty stack, the plain advance. -/
theorem execRet_cases (s : State) :
    (∃ k : Fin 16, s.sp.val = k.val + 1 ∧ exec .ret s = .next (s.popFrame.setPc (s.stack[k] + 2))) ∨
    (s.sp.val = 0 ∧ exec .ret s = .next s.advance) := by
  by_cases h : s.sp.val = 0
  · exact .inr ⟨h, by simp [exec, execRet, s.topFrame_of_empty h]⟩
  · obtain ⟨k, hk⟩ : ∃ k : Fin 16, s.sp.val = k.val + 1 := ⟨⟨s.sp.val - 1, by omega⟩, (Nat.succ_pred h).symm⟩
    exact .inl ⟨k, hk, by simp only [exec, execRet, s.topFrame_of_sp hk]⟩

/-- Settles O21: the push is the only write beside pc. -/
theorem callPushesItsAddressAndJumps : Obligations.CallPushesItsAddressAndJumps := by
  intro nnn s
  refine ⟨⟨_, rfl, toNat_addrOf nnn, s.byteAt_pushFrame s.pc, ?_, fun k hk => ⟨?_, ?_⟩, fun k hk => ?_, fun hfull => ?_⟩,
    packA_toNat 2 nnn⟩
  · exact congrArg (State.setPc · (addrOf nnn)) (s.pushFrame_frame s.pc)
  · exact s.pushFrame_sp_of_lt s.pc (hk ▸ k.isLt)
  · exact s.pushFrame_stack_of_eq s.pc hk
  · exact s.pushFrame_stack_of_ne s.pc hk
  · rw [State.setPc_sp, s.pushFrame_of_full s.pc hfull]

/-- Settles O22: the case of the stack decides, and contradicts the clause for the other. -/
theorem returnPopsAndGoesPastTheCall : Obligations.ReturnPopsAndGoesPastTheCall := by
  intro s
  refine ⟨?_, rfl⟩
  obtain ⟨k, hk, he⟩ | ⟨h0, he⟩ := execRet_cases s
  · refine ⟨_, he, fun _ => rfl, rfl, fun j hj => ?_, fun h0 => absurd (hk.symm.trans h0) (by omega)⟩
    obtain rfl : j = k := Fin.ext (by omega)
    exact ⟨Nat.sub_eq_of_eq_add hk, rfl⟩
  · exact ⟨_, he, fun _ => rfl, rfl, fun j hj => absurd (hj.symm.trans h0) (by omega), fun _ => ⟨rfl, rfl⟩⟩

/-- Settles O23: what the call says of the entry at SP is what the return reads. -/
theorem callThenReturnComesBack : Obligations.CallThenReturnComesBack := by
  intro nnn s t u hlt hcall hsp hstack
  obtain ⟨k, hk⟩ : ∃ k : Fin 16, s.sp.val = k.val := ⟨⟨s.sp.val, hlt⟩, rfl⟩
  obtain ⟨⟨t', hcall', -, -, -, hpush, -, -⟩, -⟩ := callPushesItsAddressAndJumps nnn s
  cases hcall'.symm.trans hcall
  obtain ⟨hdepth, hentry⟩ := hpush k hk
  obtain ⟨⟨w, hret, -, -, hpop, -⟩, -⟩ := returnPopsAndGoesPastTheCall u
  obtain ⟨hwsp, hwpc⟩ := hpop k (by rw [hsp, hdepth, hk])
  exact ⟨w, hret, by rw [hwpc, hstack, hentry], Fin.ext (hwsp.trans hk.symm)⟩

/-! ## The decode miss (R90) -/

theorem step_eq_execCycle {s : State} (hstep : s.nextEvent = .step) (hrun : s.mode = .run) :
    step s = execCycle (executing s) := by
  rw [step_eq, hstep]
  exact stepEvent_run s.takeEvent hrun

theorem execCycle_of_miss {s : State} {w : Word} (hfetch : s.fetchWord = some w) (hmiss : resolve w = none) :
    execCycle s = .next (s.report w).advance := by
  simp [execCycle, execUnknown, hfetch, hmiss]

/-- Settles O9: the unknown action on the executing state, whose fetch is the one of `s`. -/
theorem decodeMissIsReportedAndSkipped : Obligations.DecodeMissIsReportedAndSkipped := by
  intro s w hstep hrun hfetch hmiss
  have hfetch' : (executing s).fetchWord = some w := hfetch
  refine ⟨((executing s).report w).advance, ?_, rfl, rfl, fun _ => rfl, rfl⟩
  rw [step_eq_execCycle hstep hrun, execCycle_of_miss hfetch' hmiss]

/-! ## Only a `Load` can stop the machine -/

theorem exec_next (i : Instr) (s : State) : ∃ t, exec i s = .next t := by
  obtain h | ⟨t, h, -⟩ := exec_cases i s
  · exact ⟨_, h⟩
  · exact ⟨t, h⟩

theorem execCycle_next (s : State) : ∃ t, execCycle s = .next t := by
  obtain ⟨-, h⟩ | ⟨w, i, -, -, h⟩ | ⟨w, -, -, h⟩ := execCycle_cases s
  · exact ⟨_, h⟩
  · rw [h]; exact exec_next i s
  · exact ⟨_, h⟩

theorem stepEvent_next (s : State) : ∃ t, stepEvent s = .next t := by
  by_cases hm : s.mode = .run
  · rw [stepEvent_run s hm]; exact execCycle_next s.sealBoot
  · exact ⟨s, stepEvent_of_ne_run s hm⟩

theorem deliver_next_or_load (e : Event) (s : State) : (∃ t, deliver e s = .next t) ∨ ∃ bytes, e = .load bytes := by
  cases e with
  | reset => exact .inl ⟨_, rfl⟩
  | load bytes => exact .inr ⟨bytes, rfl⟩
  | step => exact .inl (stepEvent_next s)
  | frameTick => left; simp only [deliver, frameTickEvent]; split <;> exact ⟨_, rfl⟩
  | keyDown k => left; simp only [deliver, keyDownEvent]; split <;> exact ⟨_, rfl⟩
  | keyUp k => left; simp only [deliver, keyUpEvent]; split <;> exact ⟨_, rfl⟩

/-- Settles O47: a step is the delivery of its event. -/
theorem onlyLoadCanStopTheMachine : Obligations.OnlyLoadCanStopTheMachine := fun s =>
  deliver_next_or_load s.nextEvent s.takeEvent

/-! ## Where pc stands after an instruction (R80, R91) -/

namespace Effect

variable {s t : State} {i : Instr}

theorem pc_of_isSkip (h : Effect s i t) (hi : isSkip i) : t.pc = s.pc + 2 ∨ t.pc = s.pc + 4 := by
  cases h with
  | skips _ c =>
    cases c
    · exact .inl rfl
    · exact .inr rfl
  | writesReg | writesRegAndFlag => exact .inl rfl
  | _ => exact hi.elim

theorem pc_of_keyWait {x : Reg} (h : Effect s (.ldVxK x) t) : t.pc = s.pc := by
  cases h with
  | ldVxK => rfl
  | skips _ _ hi => exact hi.elim
  | writesReg _ _ _ hd | writesRegAndFlag _ _ _ _ hd => exact hd.elim

theorem pc_eq_add_two (h : Effect s i t) (hr : ¬ redirects i) (hs : ¬ isSkip i) (hk : ∀ x, i ≠ .ldVxK x) :
    t.pc = s.pc + 2 := by
  cases h with
  | jp | jpV0 | call | ret | retEmpty => exact absurd trivial hr
  | skips _ _ hi => exact absurd hi hs
  | ldVxK x => exact absurd rfl (hk x)
  | _ => simp

end Effect

/-- Settles O54, from the instruction's effect. -/
theorem pcAdvancesByOneWordUnlessListed : Obligations.PcAdvancesByOneWordUnlessListed := by
  intro i s t h hm hr
  have he := effect_of_exec_of_not_fatal h hm
  refine ⟨he.pc_of_isSkip, ?_, he.pc_eq_add_two hr⟩
  rintro ⟨x, rfl⟩
  exact he.pc_of_keyWait

end Sys2Proof.Machine
end

section
/-! PROOFS. The statements about the register and ALU instructions (spec/41_alu.md): what a result written into V[X]
leaves as it was, the flags as numbers, and the value each instruction computes. -/

namespace Sys2Proof.Machine

open Sys2Proof.Claims

/-! ## What a written register leaves (R100) -/

theorem onlyRegs_setV_advance (s : State) (x : Reg) (b : Byte) : onlyRegs s (s.setV x b).advance :=
  ⟨rfl, s.byteAt_setV x b⟩

theorem sameRegsBut_setV_advance (s : State) (x : Reg) (b : Byte) : sameRegsBut (· = x) s (s.setV x b).advance :=
  fun r hr => s.getV_setV_of_ne x r b hr

theorem toNat_getV_setV_advance (s : State) (x : Reg) (b : Byte) : ((s.setV x b).advance.getV x).toNat = b.toNat := by
  rw [State.getV_advance, State.getV_setV_self]

/-- An instruction that answers one register and the advance. -/
theorem writesReg_setV_advance (s : State) (x : Reg) {b : Byte} {n : Nat} (hb : b.toNat = n) :
    writesReg s (s.setV x b).advance x n :=
  ⟨(toNat_getV_setV_advance s x b).trans hb, sameRegsBut_setV_advance s x b, rfl, onlyRegs_setV_advance s x b⟩

/-- An instruction that answers a flag and a result: with X = 15 the result is written over the flag. -/
theorem writesRegAndFlag_flagThenResult (s : State) (x : Reg) {flag result : Byte} {n f : Nat}
    (hresult : result.toNat = n) (hflag : flag.toNat = f) :
    writesRegAndFlag s (s.flagThenResult x flag result) x n f := by
  refine ⟨?_, fun hx => ?_, fun r hr => ?_, rfl, s.flagThenResult_frame x flag result, fun _ => rfl⟩
  · rw [State.getV_flagThenResult, if_pos rfl, hresult]
  · rw [State.getV_flagThenResult, if_neg hx.symm, if_pos rfl, hflag]
  · obtain ⟨hx, hVF⟩ := not_or.mp hr
    rw [State.getV_flagThenResult, if_neg hx, if_neg hVF]

/-! ## Flags as numbers (R11) -/

theorem toNat_flagByte (c : Bool) : (flagByte c).toNat = c.toNat := by
  cases c <;> rfl

theorem flagOf_eq_toNat_decide (p : Prop) [Decidable p] : flagOf p = (decide p).toNat := by
  by_cases h : p <;> simp [flagOf, h]

theorem toNat_carryOut (a b : Byte) : (carryOut a b).toNat = flagOf (a.toNat + b.toNat > 255) := by
  rw [carryOut, toNat_flagByte, flagOf_eq_toNat_decide]

theorem toNat_notBorrow (a b : Byte) : (notBorrow a b).toNat = flagOf (¬ a.toNat < b.toNat) := by
  rw [notBorrow, toNat_flagByte, flagOf_eq_toNat_decide, decide_not]

theorem toNat_shiftedOutRight (a : Byte) : (shiftedOutRight a).toNat = a.toNat % 2 := by
  rw [shiftedOutRight, toNat_flagByte, BitVec.getLsbD, Nat.toNat_testBit, Nat.pow_zero, Nat.div_one]

/-- Bit 7 is the top bit of a byte, so nothing is left above it. -/
theorem toNat_shiftedOutLeft (a : Byte) : (shiftedOutLeft a).toNat = a.toNat / 128 := by
  rw [shiftedOutLeft, toNat_flagByte, BitVec.getLsbD, Nat.toNat_testBit]
  omega

/-! ## Results as numbers -/

/-- The difference modulo 256, with the 256 borrowed in front. -/
theorem toNat_sub_byte (a b : Byte) : (a - b).toNat = (256 + a.toNat - b.toNat) % 256 := by
  rw [BitVec.toNat_sub]
  omega

theorem toNat_shiftRight_one (a : Byte) : (a >>> 1).toNat = a.toNat / 2 :=
  Nat.shiftRight_one a.toNat

theorem toNat_shiftLeft_one (a : Byte) : (a <<< 1).toNat = 2 * a.toNat % 256 := by
  rw [BitVec.toNat_shiftLeft, Nat.shiftLeft_eq, Nat.mul_comm]

/-! ## Add and subtract with a flag (R107, R108, R110) -/

/-- Settles O13: the byte sum, and the carry of the unreduced sum. -/
theorem addWithCarrySetsSumAndCarry : Obligations.AddWithCarrySetsSumAndCarry := fun x y s =>
  ⟨⟨_, rfl, writesRegAndFlag_flagThenResult s x (BitVec.toNat_add _ _) (toNat_carryOut _ _)⟩,
    packXYN_toNat 8 x y 4⟩

/-- Settles O14: the byte difference Vx - Vy and its NOT borrow. -/
theorem subWithBorrowSetsDifferenceAndNotBorrow : Obligations.SubWithBorrowSetsDifferenceAndNotBorrow := fun x y s =>
  ⟨⟨_, rfl, writesRegAndFlag_flagThenResult s x (toNat_sub_byte _ _) (toNat_notBorrow _ _)⟩,
    packXYN_toNat 8 x y 5⟩

/-- Settles O15: as O14 with the operands changed over. -/
theorem subReverseSetsDifferenceAndNotBorrow : Obligations.SubReverseSetsDifferenceAndNotBorrow := fun x _ s =>
  ⟨_, rfl, writesRegAndFlag_flagThenResult s x (toNat_sub_byte _ _) (toNat_notBorrow _ _)⟩

/-! ## Shifts (R109, R111) -/

/-- Settles O16: a shift by one place halves or doubles Vx, and the flag is the bit that falls out. -/
theorem shiftsMoveOnePlaceAndSetTheBitMovedOut : Obligations.ShiftsMoveOnePlaceAndSetTheBitMovedOut := fun x _ s =>
  ⟨⟨_, rfl, writesRegAndFlag_flagThenResult s x (toNat_shiftRight_one _) (toNat_shiftedOutRight _)⟩,
    ⟨_, rfl, writesRegAndFlag_flagThenResult s x (toNat_shiftLeft_one _) (toNat_shiftedOutLeft _)⟩⟩

/-! ## The random draw (R113, R114) -/

/-- A remainder modulo KK + 1 is at most KK, so the byte holds it whole. -/
theorem toNat_reduceRnd (r : Nat) (kk : Byte) : (reduceRnd r kk).toNat = r % (kk.toNat + 1) := by
  have hlt : r % (kk.toNat + 1) < kk.toNat + 1 := Nat.mod_lt _ (Nat.succ_pos _)
  rw [reduceRnd, BitVec.toNat_ofNat, Nat.mod_eq_of_lt (by omega)]

theorem State.rndValue_cons {s : State} {r : Nat} {rs : List Nat} (h : s.rnd = r :: rs) : s.rndValue = r := by
  rw [State.rndValue, h]

theorem State.afterRnd_cons {s : State} {r : Nat} {rs : List Nat} (h : s.rnd = r :: rs) :
    s.afterRnd = { s with rnd := rs } := by
  rw [State.afterRnd, h]

theorem State.afterRnd_nil {s : State} (h : s.rnd = []) : s.afterRnd = { s with free := s.free + 1 } := by
  rw [State.afterRnd, h]

/-- A draw and a register write change V, pc and the model's own input fields only. -/
theorem State.afterRnd_setV_advance_frame (s : State) (x : Reg) (b : Byte) :
    (s.afterRnd.setV x b).advance =
      { s with v := (s.afterRnd.setV x b).v, pc := s.afterRnd.pc + 2, rnd := s.afterRnd.rnd, free := s.afterRnd.free } := by
  rw [s.afterRnd_frame]
  rfl

/-- Settles O17: the byte written is the draw reduced modulo KK + 1, and the draw changes the input fields only. -/
theorem randomResultIsTheDrawModuloKkPlusOne : Obligations.RandomResultIsTheDrawModuloKkPlusOne := by
  intro x kk s
  have hvalue : ((s.afterRnd.setV x (reduceRnd s.rndValue kk)).advance.getV x).toNat = s.rndValue % (kk.toNat + 1) :=
    (toNat_getV_setV_advance _ x _).trans (toNat_reduceRnd _ kk)
  have hbound : s.rndValue % (kk.toNat + 1) ≤ kk.toNat := Nat.le_of_lt_succ (Nat.mod_lt _ (Nat.succ_pos _))
  have hregs : sameRegsBut (· = x) s (s.afterRnd.setV x (reduceRnd s.rndValue kk)).advance := fun r hr =>
    (sameRegsBut_setV_advance s.afterRnd x _ r hr).trans (s.getV_afterRnd r)
  refine ⟨_, rfl, hvalue, hvalue.trans_le hbound, hregs, ?_, s.byteAt_afterRnd, s.afterRnd_setV_advance_frame x _,
    fun r rs h => ⟨s.rndValue_cons h, ?_⟩, fun h => ?_⟩
  · rw [State.advance_pc, State.setV_pc, State.afterRnd_pc]
  · rw [State.advance_rnd, State.setV_rnd, State.afterRnd_cons h]
  · rw [State.advance_rnd, State.setV_rnd, State.advance_free, State.setV_free, State.afterRnd_nil h]
    exact ⟨h, rfl⟩

/-! ## Loads, the immediate add and the bitwise operations (R101 to R106) -/

/-- Settles O11: one register takes KK, the byte sum or Vy. -/
theorem loadsAndImmediateAddWriteOneRegister : Obligations.LoadsAndImmediateAddWriteOneRegister := fun x y kk s =>
  ⟨⟨_, rfl, writesReg_setV_advance s x rfl⟩, ⟨_, rfl, writesReg_setV_advance s x (BitVec.toNat_add _ kk)⟩,
    ⟨_, rfl, writesReg_setV_advance s x rfl⟩, packXK_toNat 6 x kk, packXK_toNat 7 x kk, packXYN_toNat 8 x y 0⟩

/-- Settles O12: a bitwise operation on bytes is the one on their numbers. -/
theorem bitwiseOperationsWriteOnlyTheirRegister : Obligations.BitwiseOperationsWriteOnlyTheirRegister := fun x _ s =>
  ⟨⟨_, rfl, writesReg_setV_advance s x (BitVec.toNat_or _ _)⟩,
    ⟨_, rfl, writesReg_setV_advance s x (BitVec.toNat_and _ _)⟩,
    ⟨_, rfl, writesReg_setV_advance s x (BitVec.toNat_xor _ _)⟩⟩

end Sys2Proof.Machine
end

section
/-! PROOFS. The statements about the index register and memory (spec/42_index_memory.md): the three instructions that set
I, the stores of digits and of registers, and the load of registers. -/

namespace Sys2Proof.Machine

open Sys2Proof.Claims

/-! ## The instructions that set I (R121, R122, R124) -/

/-- Settles O24: NNN is zero-extended, so I takes its number. -/
theorem setIndexWritesOnlyIndex : Obligations.SetIndexWritesOnlyIndex := fun nnn _ =>
  ⟨⟨_, rfl, toNat_addrOf nnn, rfl, fun _ => rfl, rfl⟩, packA_toNat 0xA nnn⟩

theorem toNat_add_setWidth (i : Word) (b : Byte) : (i + b.setWidth 16).toNat = (i.toNat + b.toNat) % 65536 := by
  rw [BitVec.toNat_add, BitVec.toNat_setWidth_of_le (by decide)]

theorem toNat_indexOverflow (i : Word) (b : Byte) :
    (indexOverflow i b).toNat = flagOf (i.toNat + b.toNat > 0x0FFF) := by
  rw [indexOverflow, toNat_flagByte, flagOf_eq_toNat_decide, iOvfLimit]

/-- Settles O25: both writes take Vx as it was before the flag (D8). -/
theorem addToIndexWrapsAndSetsOverflow : Obligations.AddToIndexWrapsAndSetsOverflow := by
  intro x s
  refine ⟨_, rfl, toNat_add_setWidth _ _, ?_, fun r hr => ?_, rfl, fun _ => rfl, rfl⟩
  · rw [State.getV_advance, State.getV_setI, State.getV_setV_self, toNat_indexOverflow]
  · rw [State.getV_advance, State.getV_setI, State.getV_setV_of_ne s VF r _ hr]

/-- The largest glyph address is 5 * 255, so I holds it whole. -/
theorem toNat_fontAddr (b : Byte) : (fontAddr b).toNat = 5 * b.toNat := by
  have hb := b.isLt
  simp only [fontAddr, fontBase, fontStride, BitVec.toNat_ofNat]
  omega

/-- Settles O26: the formula of `fontAddr` never wraps. -/
theorem fontAddressIsFiveTimesTheDigit : Obligations.FontAddressIsFiveTimesTheDigit := fun _ _ =>
  ⟨_, rfl, toNat_fontAddr _, rfl, fun _ => rfl, rfl⟩

/-! ## What completed writes at I leave (R43, R120) -/

/-- Completed writes give a state that differs in memory only, in the form `Effect` speaks of. -/
theorem State.exists_mem_of_writeBytes {s t : State} {a : Nat} {bs : List Byte} (h : s.writeBytes a bs = some t) :
    ∃ m, t = { s with mem := m } :=
  ⟨t.mem, s.writeBytes_frame t a bs h⟩

/-- In a canonical memory entry j of the stored list is read back at I + j. -/
theorem State.byteAt_dataAddr_of_writeBytes {s t : State} {bs : List Byte} {j : Nat} {b : Byte}
    (h : s.writeBytes (s.dataAddr 0) bs = some t) (hwf : s.mem.wf (unlisted s.font) = true) (hj : bs[j]? = some b) :
    t.byteAt (s.dataAddr j) = b := by
  obtain ⟨-, -, hbyte⟩ := s.writeBytes_some t _ bs h hwf
  have hle : s.dataAddr 0 ≤ s.dataAddr j := Nat.add_le_add_left (Nat.zero_le j) _
  have hsub : s.dataAddr j - s.dataAddr 0 = j := Nat.add_sub_cancel_left s.ireg.toNat j
  rw [hbyte, if_pos hle, hsub, hj, Option.getD_some]

/-- An entry stored as a number below 256 is read back as that number, also past the advance. -/
theorem State.toNat_byteAt_dataAddr_of_writeBytes {s t : State} {bs : List Byte} {j n : Nat}
    (h : s.writeBytes (s.dataAddr 0) bs = some t) (hwf : s.mem.wf (unlisted s.font) = true)
    (hj : bs[j]? = some (BitVec.ofNat 8 n)) (hn : n < 256) : (t.advance.byteAt (s.dataAddr j)).toNat = n := by
  rw [State.byteAt_advance, State.byteAt_dataAddr_of_writeBytes h hwf hj, BitVec.toNat_ofNat, Nat.mod_eq_of_lt hn]

/-! ## The stores of digits and of registers (R126, R128) -/

/-- Settles O27: the writes complete or raise the violation; the list they store is the three digits, each of which fits a
byte. -/
theorem bcdStoresThreeDigitsAtIndex : Obligations.BcdStoresThreeDigitsAtIndex := by
  intro x s hwf
  obtain ⟨hlt, t, ht, he⟩ | ⟨hge, he⟩ := execLdB_cases x s
  · obtain ⟨m, rfl⟩ := State.exists_mem_of_writeBytes ht
    have hb := (s.getV x).isLt
    refine ⟨fun _ => ⟨_, he, ?_, ?_, ?_, fun _ => (Effect.ldB x m ht).byteAt_eq hwf, rfl, rfl⟩,
      fun hout => absurd hlt (Nat.not_lt.mpr hout), packXK_toNat 0xF x 0x33⟩
    · exact State.toNat_byteAt_dataAddr_of_writeBytes (j := 0) ht hwf rfl (by omega)
    · exact State.toNat_byteAt_dataAddr_of_writeBytes (j := 1) ht hwf rfl (by omega)
    · exact State.toNat_byteAt_dataAddr_of_writeBytes (j := 2) ht hwf rfl (by omega)
  · exact ⟨fun hin => absurd hin (Nat.not_le.mpr hge), fun _ => ⟨_, he, rfl⟩, packXK_toNat 0xF x 0x33⟩

/-- Settles O28: as O27, where the list stored at I is V0 to VX. -/
theorem dumpStoresRegistersUpToX : Obligations.DumpStoresRegistersUpToX := by
  intro x s hwf
  obtain ⟨hlt, t, ht, he⟩ | ⟨hge, he⟩ := execDump_cases x s
  · obtain ⟨m, rfl⟩ := State.exists_mem_of_writeBytes ht
    exact ⟨fun _ => ⟨_, he, fun _ => byteAt_dataAddr_of_dump hwf hlt he,
      fun _ => (Effect.dump x m ht).byteAt_eq hwf, rfl, rfl⟩,
      fun hout => absurd hlt (Nat.not_lt.mpr hout), packXK_toNat 0xF x 0x55⟩
  · exact ⟨fun hin => absurd hin (Nat.not_le.mpr hge), fun _ => ⟨_, he, rfl⟩, packXK_toNat 0xF x 0x55⟩

/-! ## The load of registers (R130) -/

/-- The first `n` registers take the `n` bytes at I upward, the others stay. -/
theorem State.getV_setVFrom_dataBytes (s : State) (n : Nat) (r : Reg) :
    (s.setVFrom 0 (s.dataBytes n)).getV r = if r.val < n then s.byteAt (s.dataAddr r.val) else s.getV r := by
  rw [State.getV_setVFrom, if_pos (Nat.zero_le _), Nat.sub_zero, State.dataBytes, List.getElem?_map]
  by_cases h : r.val < n
  · rw [if_pos h, List.getElem?_range h, Option.map_some, Option.getD_some]
  · rw [if_neg h, List.getElem?_eq_none (by simpa using h), Option.map_none, Option.getD_none]

theorem onlyRegs_setVFrom_advance (s : State) (k : Nat) (bs : List Byte) : onlyRegs s (s.setVFrom k bs).advance := by
  rw [s.setVFrom_frame k bs]
  exact ⟨rfl, fun _ => rfl⟩

/-- Settles O29: the X + 1 bytes at I upward go to the first X + 1 registers. -/
theorem loadReadsRegistersUpToX : Obligations.LoadReadsRegistersUpToX := by
  intro x s
  obtain ⟨hlt, he⟩ | ⟨hge, he⟩ := execLoad_cases x s
  · refine ⟨fun _ => ⟨_, he, fun r hr => ?_, fun r hr => ?_, ?_, onlyRegs_setVFrom_advance s 0 _⟩,
      fun hout => absurd hlt (Nat.not_lt.mpr hout), packXK_toNat 0xF x 0x65⟩
    · rw [State.getV_advance, State.getV_setVFrom_dataBytes, if_pos (Nat.lt_succ_of_le hr)]
    · rw [State.getV_advance, State.getV_setVFrom_dataBytes, if_neg (mt Nat.le_of_lt_succ hr)]
    · rw [State.advance_pc, State.setVFrom_pc]
  · exact ⟨fun hin => absurd hin (Nat.not_le.mpr hge), fun _ => ⟨_, he, rfl⟩, packXK_toNat 0xF x 0x65⟩

/-! ## The round trip (R130) -/

/-- Settles O30: the dump keeps I, so the load reads the addresses the dump stored to. -/
theorem dumpThenLoadRestoresRegisters : Obligations.DumpThenLoadRestoresRegisters := by
  intro x s t u hwf hin hdump hmem hfont hireg
  obtain ⟨hstores, -, -⟩ := dumpStoresRegistersUpToX x s hwf
  obtain ⟨t', hdump', hstored, -, -, hframe⟩ := hstores hin
  cases hdump'.symm.trans hdump
  have haddr (k : Nat) : u.dataAddr k = s.dataAddr k := by
    rw [State.dataAddr, State.dataAddr, hireg, hframe]
  obtain ⟨hloads, -, -⟩ := loadReadsRegistersUpToX x u
  obtain ⟨w, hload, hread, -, -, -⟩ := hloads ((haddr x.val).trans_le hin)
  refine ⟨w, hload, fun r hr => ?_⟩
  calc w.getV r = u.byteAt (u.dataAddr r.val) := hread r hr
    _ = t.byteAt (s.dataAddr r.val) := by rw [haddr, State.byteAt_congr t u _ hmem hfont]
    _ = s.getV r := hstored r hr

end Sys2Proof.Machine
end

section
/-! PROOFS. The statements about the framebuffer (spec/43_framebuffer.md): the clear, one sprite drawn, and the same sprite
drawn twice. -/

namespace Sys2Proof.Machine

open Sys2Proof.Claims

/-! ## The clear (R141) -/

/-- Settles O33: only the grid and pc are written, and the blank grid has every pixel off. -/
theorem clearScreenTurnsEveryPixelOff : Obligations.ClearScreenTurnsEveryPixelOff := fun _ =>
  ⟨⟨_, rfl, Framebuffer.pixel_blank, rfl, fun _ => rfl, rfl⟩, rfl⟩

/-! ## The pixels under a sprite (R142) -/

/-- The pixels hit by the bytes at I are the covered ones: row r of the sprite is the byte at I + r. -/
theorem rowsHit_dataBytes (s : State) (ox oy n : Nat) (px : Fin 64) (py : Fin 32) :
    rowsHit ox oy px py 0 (s.dataBytes n) = true ↔ covered s ox oy n px py := by
  simp only [rowsHit_eq_true, State.dataBytes, List.getElem?_map, Option.map_eq_some_iff, List.getElem?_eq_some_iff,
    List.length_range, List.getElem_range, column, rowOf, Fin.ext_iff, Fin.val_ofNat, covered, Nat.zero_add]
  constructor
  · rintro ⟨r, _, ⟨_, ⟨hr, rfl⟩, rfl⟩, hrow, j, hj, hbit, hcol⟩
    exact ⟨r, j, hr, hj, hbit, hcol, hrow⟩
  · rintro ⟨r, j, hr, hj, hbit, hcol, hrow⟩
    exact ⟨r, _, ⟨r, ⟨hr, rfl⟩, rfl⟩, hrow, j, hj, hbit, hcol⟩

/-- What a sprite covers depends on the state through I and the bytes of memory only. -/
theorem covered_congr {s t : State} (hireg : t.ireg = s.ireg) (hbytes : sameBytes s t) (ox oy n : Nat) (px : Fin 64)
    (py : Fin 32) : covered t ox oy n px py ↔ covered s ox oy n px py := by
  simp only [covered, State.dataAddr, hireg, hbytes _]

/-! ## One sprite drawn (R142, R143) -/

theorem State.length_dataBytes (s : State) (n : Nat) : (s.dataBytes n).length = n := by
  rw [State.dataBytes, List.length_map, List.length_range]

/-- `DrawSprite` of the bytes at I, in terms of the covered pixels. -/
theorem drawSprite_dataBytes (s : State) (ox oy : Byte) (n : Fin 16) (f : Framebuffer) :
    (∀ px py, covered s ox.toNat oy.toNat n.val px py →
      (drawSprite ox oy (s.dataBytes n.val) f).1.pixel px py = !f.pixel px py) ∧
    (∀ px py, ¬ covered s ox.toNat oy.toNat n.val px py →
      (drawSprite ox oy (s.dataBytes n.val) f).1.pixel px py = f.pixel px py) ∧
    ((drawSprite ox oy (s.dataBytes n.val) f).2 = true ↔
      ∃ px py, covered s ox.toNat oy.toNat n.val px py ∧ f.pixel px py = true) := by
  have hlen : (s.dataBytes n.val).length ≤ 32 := by
    rw [State.length_dataBytes]
    omega
  obtain ⟨hpixel, hcollision⟩ := drawSprite_spec ox oy (s.dataBytes n.val) hlen f
  simp only [rowsHit_dataBytes] at hcollision
  refine ⟨fun px py hc => ?_, fun px py hc => ?_, hcollision⟩
  · rw [hpixel, (rowsHit_dataBytes ..).mpr hc, Bool.xor_true]
  · rw [hpixel, Bool.eq_false_iff.mpr (mt (rowsHit_dataBytes ..).mp hc), Bool.xor_false]

theorem flagByte_eq_one_iff (c : Bool) : flagByte c = 1 ↔ c = true := by
  cases c <;> decide

/-- Settles O34: with the sprite in memory the draw completes, and the blitter flips the covered pixels. -/
theorem drawFlipsCoveredPixelsAndReportsCollision : Obligations.DrawFlipsCoveredPixelsAndReportsCollision := by
  intro x y n s hin
  obtain ⟨-, he⟩ | ⟨hout, -⟩ := execDrw_cases x y n s
  · obtain ⟨hon, hoff, hcollision⟩ := drawSprite_dataBytes s (s.getV x) (s.getV y) n s.fb
    refine ⟨_, he, hon, hoff, ?_, ?_, ?_, rfl, fun _ => rfl, rfl⟩
    · rw [State.getV_advance, State.getV_setV_self]
      exact flagByte_zero_or_one _
    · rw [State.getV_advance, State.getV_setV_self, flagByte_eq_one_iff]
      exact hcollision
    · exact sameRegsBut_setV_advance (s.setFb _) VF _
  · have hfits : n.val = 0 ∨ s.dataAddr n.val ≤ Config.memSize := by
      simp only [State.dataAddr, Config.memSize] at hin ⊢
      omega
    exact absurd hfits hout

/-! ## The same sprite drawn twice (R144) -/

/-- Settles O35: neither origin, I nor memory is written by the first draw, so the second covers the same pixels and turns
each back; it finds one on exactly where the first found it off. -/
theorem drawTwiceRestoresTheGrid : Obligations.DrawTwiceRestoresTheGrid := by
  intro x y n s t hx hy hin hfirst
  obtain ⟨t', hfirst', hon, hoff, -, -, hregs, -, hbytes, hframe⟩ :=
    drawFlipsCoveredPixelsAndReportsCollision x y n s hin
  cases hfirst'.symm.trans hfirst
  have hireg : t.ireg = s.ireg := by rw [hframe]
  have hin' : n.val = 0 ∨ t.dataAddr (n.val - 1) ≤ 4095 := by
    simpa only [State.dataAddr, hireg] using hin
  obtain ⟨u, hsecond, hon', hoff', -, hflag, -⟩ := drawFlipsCoveredPixelsAndReportsCollision x y n t hin'
  simp only [hregs x hx, hregs y hy, covered_congr hireg hbytes] at hon' hoff' hflag
  refine ⟨u, hsecond, fun px py => ?_, ?_⟩
  · by_cases hc : covered s (s.getV x).toNat (s.getV y).toNat n.val px py
    · rw [hon' px py hc, hon px py hc, Bool.not_not]
    · rw [hoff' px py hc, hoff px py hc]
  · rw [hflag]
    refine exists₂_congr fun px py => and_congr_right fun hc => ?_
    rw [hon px py hc, Bool.not_eq_true']

end Sys2Proof.Machine
end

section
/-! PROOFS. The statements about the timers and the keys (spec/44_timers_keys.md): the timer instructions, the key skips
and the key wait, and the host's events `FrameTick`, `KeyDown` and `KeyUp`. -/

namespace Sys2Proof.Machine

open Sys2Proof.Claims

/-! ## The timer instructions (R156, R157, R158) -/

/-- Settles O36: each is one write and the advance. -/
theorem timerInstructionsMoveOneByte : Obligations.TimerInstructionsMoveOneByte := fun x s =>
  ⟨⟨_, rfl, writesReg_setV_advance s x rfl⟩, ⟨_, rfl, rfl, rfl, fun _ => rfl, rfl⟩, ⟨_, rfl, rfl, rfl, fun _ => rfl, rfl⟩,
    packXK_toNat 0xF x 0x07, packXK_toNat 0xF x 0x15, packXK_toNat 0xF x 0x18⟩

/-! ## The key instructions (R162, R163, R164) -/

theorem keyIndex_eq_some {b : Byte} {k : Key} (h : b.toNat = k.val) : keyIndex b = some k := by
  rw [keyIndex_of_lt b (h.trans_lt k.isLt)]
  exact congrArg some (Fin.ext h)

section
variable {x : Reg} {s : State}

theorem exec_skp_of_key {k : Key} (h : (s.getV x).toNat = k.val) :
    exec (.skp x) s = .next (s.skipIf (s.keyDown k)) := by
  simp only [exec, execSkp, keyIndex_eq_some h]

theorem exec_sknp_of_key {k : Key} (h : (s.getV x).toNat = k.val) :
    exec (.sknp x) s = .next (s.skipIf (!s.keyDown k)) := by
  simp only [exec, execSknp, keyIndex_eq_some h]

theorem exec_skp_of_no_key (h : 15 < (s.getV x).toNat) : exec (.skp x) s = .next s.raiseIndexBounds := by
  simp only [exec, execSkp, keyIndex_of_ge _ h]

theorem exec_sknp_of_no_key (h : 15 < (s.getV x).toNat) : exec (.sknp x) s = .next s.raiseIndexBounds := by
  simp only [exec, execSknp, keyIndex_of_ge _ h]

end

/-- Settles O37: with a key in Vx each skip is `skipIf` on its flag, and with none the violation. -/
theorem keySkipsReadTheKeyVxNames : Obligations.KeySkipsReadTheKeyVxNames := by
  intro x s
  refine ⟨fun k hk => ⟨⟨_, exec_skp_of_key hk, skipsWhen_skipIf s Iff.rfl⟩, ⟨_, exec_sknp_of_key hk, ?_⟩⟩,
    fun hk => ⟨⟨_, exec_skp_of_no_key hk, rfl⟩, ⟨_, exec_sknp_of_no_key hk, rfl⟩⟩⟩
  exact skipsWhen_skipIf s (by rw [Bool.not_eq_true'])

/-- Settles O38: only WAITREG and MODE are written. -/
theorem keyWaitLatchesXAndHoldsPc : Obligations.KeyWaitLatchesXAndHoldsPc := fun _ _ =>
  ⟨_, rfl, rfl, rfl, rfl, fun _ => rfl, fun _ => rfl, rfl⟩

/-! ## The host's events by mode (R160, R166, R167, R179) -/

theorem State.keyDown_setKey_self (s : State) (k : Key) (b : Bool) : (s.setKey k b).keyDown k = b := by
  rw [State.keyDown_setKey, if_pos rfl]

theorem State.keyDown_setKey_of_ne (s : State) {k j : Key} (b : Bool) (h : j ≠ k) :
    (s.setKey k b).keyDown j = s.keyDown j := by
  rw [State.keyDown_setKey, if_neg h]

/-- The floor of the count is the truncated subtraction on numbers. -/
theorem toNat_countDown (b : Byte) : (countDown b).toNat = b.toNat - 1 := by
  unfold countDown
  split
  · next h => rw [h]; rfl
  · next h => bv_omega

/-! In the `ne_fatal` lemmas the hypothesis is what lets `simp` take the event's default arm. -/

section
variable {s : State}

theorem deliver_frameTick_of_fatal (h : s.mode = .fatal) : deliver .frameTick s = .next s := by
  simp only [deliver, frameTickEvent, h]

theorem deliver_frameTick_of_ne_fatal (h : s.mode ≠ .fatal) :
    deliver .frameTick s = .next ((s.setDt (countDown s.dt)).setSt (countDown s.st)) := by
  simp only [deliver, frameTickEvent]

theorem deliver_keyUp_of_fatal (k : Key) (h : s.mode = .fatal) : deliver (.keyUp k) s = .next s := by
  simp only [deliver, keyUpEvent, h]

theorem deliver_keyUp_of_ne_fatal (k : Key) (h : s.mode ≠ .fatal) :
    deliver (.keyUp k) s = .next (s.setKey k false) := by
  simp only [deliver, keyUpEvent]

theorem deliver_keyDown_of_run (k : Key) (h : s.mode = .run) : deliver (.keyDown k) s = .next (s.setKey k true) := by
  simp only [deliver, keyDownEvent, h]

theorem deliver_keyDown_of_awaitKey (k : Key) (h : s.mode = .awaitKey) :
    deliver (.keyDown k) s = .next ((s.setKey k true).endWait k) := by
  simp only [deliver, keyDownEvent, h]

end

/-- Settles O42: each timer is counted down on its own, and nothing else is written. -/
theorem frameTickCountsBothTimersDown : Obligations.FrameTickCountsBothTimersDown := by
  intro s
  by_cases hm : s.mode = .fatal
  · exact ⟨s, deliver_frameTick_of_fatal hm, fun _ => rfl, fun hne => absurd hm hne⟩
  · exact ⟨_, deliver_frameTick_of_ne_fatal hm, fun hf => absurd hf hm,
      fun _ => ⟨toNat_countDown s.dt, toNat_countDown s.st, rfl⟩⟩

/-- Settles O41: outside FATAL the flag is the one write. -/
theorem keyUpClearsItsFlagOnly : Obligations.KeyUpClearsItsFlagOnly := by
  intro k s
  by_cases hm : s.mode = .fatal
  · exact ⟨s, deliver_keyUp_of_fatal k hm, fun _ => rfl, fun hne => absurd hm hne⟩
  · exact ⟨_, deliver_keyUp_of_ne_fatal k hm, fun hf => absurd hf hm,
      fun _ => ⟨s.keyDown_setKey_self k false, fun _ hj => s.keyDown_setKey_of_ne false hj, rfl⟩⟩

/-- Settles O40: in RUN the flag is the one write; in AWAIT_KEY the end of the wait follows it. -/
theorem keyDownSetsItsFlagAndEndsAWait : Obligations.KeyDownSetsItsFlagAndEndsAWait := by
  intro k s hne
  have hflag : (s.setKey k true).keyDown k = true := s.keyDown_setKey_self k true
  have hothers : ∀ j, j ≠ k → (s.setKey k true).keyDown j = s.keyDown j := fun _ hj => s.keyDown_setKey_of_ne true hj
  cases hm : s.mode with
  | fatal => exact absurd hm hne
  | run =>
    exact ⟨_, deliver_keyDown_of_run k hm, hflag, hothers, hm, fun _ => rfl, rfl, fun _ => ⟨fun _ => rfl, rfl⟩, nofun⟩
  | awaitKey =>
    have hkey : (BitVec.ofNat 8 k.val).toNat = k.val := Nat.mod_eq_of_lt (k.isLt.trans (by decide))
    refine ⟨_, deliver_keyDown_of_awaitKey k hm, hflag, hothers, rfl, fun _ => rfl, rfl, nofun, fun _ => ⟨?_, ?_, rfl⟩⟩
    · exact (toNat_getV_setV_advance (s.setKey k true) s.waitReg _).trans hkey
    · exact sameRegsBut_setV_advance (s.setKey k true) s.waitReg _

/-! ## The key wait (R165) -/

theorem deliver_step_of_awaitKey {s : State} (h : s.mode = .awaitKey) : deliver .step s = .next s :=
  stepEvent_of_ne_run s (by rw [h]; decide)

/-- Outside FATAL no event but `Reset`, `Step` and `KeyDown` writes MODE, and in AWAIT_KEY `Step` does not either. -/
theorem mode_of_deliver_of_awaitKey {e : Event} {s t : State} (hm : s.mode = .awaitKey) (h : deliver e s = .next t) :
    e = .reset ∨ (∃ k, e = .keyDown k) ∨ t.mode = .awaitKey := by
  have hne : s.mode ≠ .fatal := by rw [hm]; decide
  cases e with
  | reset => exact .inl rfl
  | keyDown k => exact .inr (.inl ⟨k, rfl⟩)
  | load bytes =>
    obtain rfl | ⟨u, hu, rfl⟩ := loadEvent_next h
    · exact .inr (.inr hm)
    · have hmode : u.mode = s.mode := by rw [s.writeBytes_frame u _ _ hu]
      exact .inr (.inr (hmode.trans hm))
  | step =>
    cases (deliver_step_of_awaitKey hm).symm.trans h
    exact .inr (.inr hm)
  | frameTick =>
    cases (deliver_frameTick_of_ne_fatal hne).symm.trans h
    exact .inr (.inr hm)
  | keyUp k =>
    cases (deliver_keyUp_of_ne_fatal k hne).symm.trans h
    exact .inr (.inr hm)

/-- Settles O39, of which `FrameTick` and `KeyUp` are O42 and O41 outside FATAL. -/
theorem keyWaitEndsOnlyByKeyDownOrReset : Obligations.KeyWaitEndsOnlyByKeyDownOrReset := by
  intro s hm
  have hne : s.mode ≠ .fatal := by rw [hm]; decide
  refine ⟨deliver_step_of_awaitKey hm, ?_, fun k => ?_, fun e t h hend => ?_⟩
  · obtain ⟨t, h, -, htimers⟩ := frameTickCountsBothTimersDown s
    exact ⟨t, h, htimers hne⟩
  · obtain ⟨t, h, -, hkeys⟩ := keyUpClearsItsFlagOnly k s
    exact ⟨t, h, hkeys hne⟩
  · exact (mode_of_deliver_of_awaitKey hm h).imp_right fun hdown => hdown.resolve_right hend

end Sys2Proof.Machine
end

section
/-! PROOFS. The statements about the violation (spec/60_exceptions.md): which instructions raise it, and that only `Reset`
leaves the mode it enters. -/

namespace Sys2Proof.Machine

open Sys2Proof.Claims

/-! ## What enters FATAL (R178) -/

/-- DXYN's cause in the form of the bound its meaning checks: the sprite's rows end past memory. -/
theorem violates_drw_iff (x y : Reg) (n : Fin 16) (s : State) :
    violates (.drw x y n) s ↔ ¬ (n.val = 0 ∨ s.dataAddr n.val ≤ Config.memSize) := by
  simp only [violates, State.dataAddr, Config.memSize]
  omega

@[simp] theorem State.flagThenResult_mode (s : State) (x : Reg) (flag result : Byte) :
    (s.flagThenResult x flag result).mode = s.mode := rfl

/-- In RUN an instruction raises the violation for its own cause, and without it completes outside FATAL. The six that
have a cause go by the check of their meaning; the others complete from every state. -/
theorem exec_violates_cases (i : Instr) {s : State} (hm : s.mode = .run) :
    (violates i s ∧ exec i s = .next s.raiseIndexBounds) ∨
    (¬ violates i s ∧ ∃ t, exec i s = .next t ∧ t.mode ≠ .fatal) := by
  cases i with
  | drw x y n =>
    rw [violates_drw_iff]
    obtain ⟨hin, he⟩ | ⟨hout, he⟩ := execDrw_cases x y n s
    · exact .inr ⟨not_not_intro hin, _, he, by simp [hm]⟩
    · exact .inl ⟨hout, he⟩
  | ldB x =>
    obtain ⟨hlt, t, ht, he⟩ | ⟨hge, he⟩ := execLdB_cases x s
    · obtain ⟨m, rfl⟩ := State.exists_mem_of_writeBytes ht
      exact .inr ⟨Nat.not_le.mpr hlt, _, he, by simp [hm]⟩
    · exact .inl ⟨hge, he⟩
  | dump x =>
    obtain ⟨hlt, t, ht, he⟩ | ⟨hge, he⟩ := execDump_cases x s
    · obtain ⟨m, rfl⟩ := State.exists_mem_of_writeBytes ht
      exact .inr ⟨Nat.not_le.mpr hlt, _, he, by simp [hm]⟩
    · exact .inl ⟨hge, he⟩
  | load x =>
    obtain ⟨hlt, he⟩ | ⟨hge, he⟩ := execLoad_cases x s
    · exact .inr ⟨Nat.not_le.mpr hlt, _, he, by simp [hm]⟩
    · exact .inl ⟨hge, he⟩
  | skp x =>
    by_cases hk : 15 < (s.getV x).toNat
    · exact .inl ⟨hk, exec_skp_of_no_key hk⟩
    · exact .inr ⟨hk, _, exec_skp_of_key (k := ⟨_, Nat.lt_of_not_le hk⟩) rfl, by simp [hm]⟩
  | sknp x =>
    by_cases hk : 15 < (s.getV x).toNat
    · exact .inl ⟨hk, exec_sknp_of_no_key hk⟩
    · exact .inr ⟨hk, _, exec_sknp_of_key (k := ⟨_, Nat.lt_of_not_le hk⟩) rfl, by simp [hm]⟩
  | ret =>
    obtain ⟨k, -, he⟩ | ⟨-, he⟩ := execRet_cases s
    · exact .inr ⟨id, _, he, by simp [hm]⟩
    · exact .inr ⟨id, _, he, by simp [hm]⟩
  | _ => exact .inr ⟨id, _, rfl, by simp [hm]⟩

/-- Settles O44: the violation's state is in FATAL, and a completed instruction's is not. -/
theorem fatalExactlyOnTheListedCauses : Obligations.FatalExactlyOnTheListedCauses := by
  intro i s hm
  obtain ⟨hv, he⟩ | ⟨hv, t, he, ht⟩ := exec_violates_cases i hm
  · exact ⟨_, he, iff_of_true s.raiseIndexBounds_mode hv⟩
  · exact ⟨t, he, iff_of_false ht hv⟩

/-! ## What leaves FATAL (R179, R184, R200) -/

theorem deliver_of_fatal {e : Event} {s : State} (hm : s.mode = .fatal) (he : e ≠ .reset) : deliver e s = .next s := by
  cases e with
  | reset => exact absurd rfl he
  | load bytes => simp only [deliver, loadEvent, hm]
  | step => exact stepEvent_of_ne_run s (by rw [hm]; decide)
  | frameTick => exact deliver_frameTick_of_fatal hm
  | keyDown k => simp only [deliver, keyDownEvent, hm]
  | keyUp k => exact deliver_keyUp_of_fatal k hm

/-- Settles O46: each event but `Reset` is ignored, and `Reset` answers the reset state's mode and pc. -/
theorem fatalIsLeftOnlyByReset : Obligations.FatalIsLeftOnlyByReset := fun _ hm =>
  ⟨fun _ => deliver_of_fatal hm, _, rfl, rfl, rfl⟩

end Sys2Proof.Machine
end

section
/-! PROOFS. The statement about boot (spec/70_reset_and_hazards.md): what a `Load` does in its place, past its bound and out
of its place. -/

namespace Sys2Proof.Machine

open Sys2Proof.Claims

/-! ## The three outcomes of a `Load` outside FATAL (R202, R203, R187) -/

/-- The program area reaches to the end of memory (R20, R47), so a ROM within the bound is written whole. -/
theorem State.exists_writeBytes_progBase (s : State) {bytes : List Byte} (hlen : bytes.length ≤ Config.romMax) :
    ∃ u, s.writeBytes Config.progBase bytes = some u := by
  have hfits : Config.progBase + bytes.length ≤ Config.memSize := Nat.add_le_add_left hlen Config.progBase
  refine Option.ne_none_iff_exists'.mp fun hnone => ?_
  obtain ⟨-, hpast⟩ := (s.writeBytes_eq_none _ _).mp hnone
  exact Nat.not_lt.mpr hfits hpast

theorem deliver_load_of_loadable {bytes : List Byte} {s u : State} (hm : s.mode ≠ .fatal) (hl : s.loadable = true)
    (hlen : bytes.length ≤ Config.romMax) (hu : s.writeBytes Config.progBase bytes = some u) :
    deliver (.load bytes) s = .next u.sealBoot := by
  simp only [deliver, loadEvent, hl, if_pos hlen, hu]

theorem deliver_load_of_too_long {bytes : List Byte} {s : State} (hm : s.mode ≠ .fatal) (hl : s.loadable = true)
    (hlen : Config.romMax < bytes.length) : deliver (.load bytes) s = .fault .romLoadFailure := by
  simp only [deliver, loadEvent, hl, if_neg (Nat.not_le.mpr hlen)]

theorem deliver_load_of_not_loadable (bytes : List Byte) {s : State} (hm : s.mode ≠ .fatal) (hl : s.loadable = false) :
    deliver (.load bytes) s = .refused .loadOutsideBoot := by
  simp only [deliver, loadEvent, hl]

/-! ## The bytes a `Load` leaves (R203) -/

/-- Completed writes to a canonical memory put entry j of the list at the j-th address. -/
theorem State.byteAt_add_of_writeBytes {s t : State} {a : Nat} {bs : List Byte} (h : s.writeBytes a bs = some t)
    (hwf : s.mem.wf (unlisted s.font) = true) {j : Nat} (hj : j < bs.length) : t.byteAt (a + j) = bs[j] := by
  obtain ⟨-, -, hbyte⟩ := s.writeBytes_some t a bs h hwf
  rw [hbyte, if_pos (Nat.le_add_right a j), Nat.add_sub_cancel_left, List.getElem?_eq_getElem hj, Option.getD_some]

/-- Settles O43: within the bound the writes complete, and ending boot touches no byte; the two stops are the other outcomes
of a `Load`. -/
theorem romLoadCopiesBytesOrFails : Obligations.RomLoadCopiesBytesOrFails := by
  intro bytes s hm
  refine ⟨fun hl hlen hwf => ?_, deliver_load_of_too_long hm, deliver_load_of_not_loadable bytes hm⟩
  obtain ⟨u, hu⟩ := s.exists_writeBytes_progBase hlen
  refine ⟨u.sealBoot, deliver_load_of_loadable hm hl hlen hu, fun j hj => ?_, fun a ha => ?_, ?_⟩
  · rw [State.byteAt_sealBoot]
    exact State.byteAt_add_of_writeBytes hu hwf hj
  · rw [State.byteAt_sealBoot]
    refine State.byteAt_of_writeBytes hu hwf fun j hj => ?_
    simp only [Config.progBase]
    omega
  · obtain ⟨m, rfl⟩ := State.exists_mem_of_writeBytes hu
    rfl

end Sys2Proof.Machine
end

section
/-! PROOFS. The statement about sample words (spec/95_test_vectors.md S1, W3, W12): a listed word is the encoding of its
instruction, and a miss is a word R70 lists. -/

namespace Sys2Proof

theorem decode_of_encode_eq {i : Instr} {bytes : List Byte} (hwf : i.wf = true) (h : encode i = bytes) :
    decode bytes = .ok (i, []) := by
  rw [← h, ← List.append_nil (encode i)]
  exact decodeOfEncodeIsTheInstruction i [] hwf

theorem decode_of_resolve_eq_none {first second : Byte} (rest : List Byte)
    (h : resolve (wordOfBytes first second) = none) :
    decode (first :: second :: rest) = .error (.decodeMiss (wordOfBytes first second)) := by
  rw [decode_two, h]

/-- Settles O3: the round trip on each listed instruction, 0x0E1 being an address `SYS` has (R67); the last digit of 0x8AB8
is one R70 lists under 8. -/
theorem sampleWordsDecodeAsListed : Obligations.SampleWordsDecodeAsListed := by
  have hmiss : resolve 0x8AB8 = none :=
    (decodeMissWordsAreExactlyTheListed 0x8AB8).mpr (.inr (.inl (by decide)))
  exact ⟨decode_of_encode_eq rfl rfl, decode_of_encode_eq rfl rfl, decode_of_encode_eq rfl rfl, decode_of_encode_eq rfl rfl,
    decode_of_encode_eq rfl rfl, decode_of_encode_eq rfl rfl, decode_of_encode_eq rfl rfl, decode_of_encode_eq rfl rfl,
    decode_of_resolve_eq_none [] hmiss⟩

end Sys2Proof
end
